-- ==== Sys2Proof/Word.lean ====
section
/-! DEFINITION. The word types of custom_hash_core (spec/00_scope.md R7, spec/30_encoding.md R71, R72, R78). -/

namespace Sys2Proof

/-- A byte: 8 bits, unsigned (R7). -/
abbrev Byte := BitVec 8

/-- A word: 32 bits, unsigned (R7). `x + y` on words is the spec's `x +32 y` (R8). -/
abbrev Word := BitVec 32

/-- A command frame `C[47:0]` (R71). -/
abbrev Frame := BitVec 48

/-- A response frame `R[39:0]` (R72). -/
abbrev Reply := BitVec 40

/-- A sequencer word `SEQ[9:0] = PH ‖ CNT` (R78). -/
abbrev SeqWord := BitVec 10

end Sys2Proof
end

