-- ==== Sys2Proof/Config.lean ====
section
/-! DEFINITION. The sizes of the hardware (spec/00_scope.md R6): all fixed by the document, none left to an
implementation. The open parameters of the spec, LOWER and UOP_CYCLES, are no sizes: LOWER is an argument of the host's
functions (Machine/Normalizer.lean), UOP_CYCLES is read by no rule (R262). -/

namespace Sys2Proof.Config

/-- `BUF_BYTES`: bytes in the scratch buffer; also `MAXLEN`. -/
@[simp] abbrev bufBytes : Nat := 1024

/-- `NWORDS`: 32-bit words in the scratch buffer. -/
@[simp] abbrev nWords : Nat := 256

/-- `NEXP`: expansion steps. -/
@[simp] abbrev nExp : Nat := 64

/-- `NROUNDS`: compression rounds. -/
@[simp] abbrev nRounds : Nat := 80

/-- `DIGEST_BYTES`. -/
@[simp] abbrev digestBytes : Nat := 20

/-- `HEX_CHARS`. -/
@[simp] abbrev hexChars : Nat := 40

/-- `NACC`: accumulators, the digest words. -/
@[simp] abbrev nAcc : Nat := 5

end Sys2Proof.Config
end

