-- ==== Sys2Proof/Syntax.lean ====
section
/-! DEFINITION. The operations of the hardware: nine host commands and seven micro-operations
(spec/30_encoding.md R70, spec/opcode_table.json), one constructor per row of the table. -/

namespace Sys2Proof

/-- A host command or a micro-operation. Index operands are plain numbers; `Instr.wellFormed` holds their ranges. -/
inductive Instr where
  /-- `NOP` (R141). -/
  | nop
  /-- `CLR` (R121). -/
  | clr
  /-- `PUSHB b`: append the byte `b` (R122). -/
  | pushb (b : Byte)
  /-- `PUSHW w`: append the four bytes of `w`, least significant first (R123). -/
  | pushw (w : Word)
  /-- `START` (R142). -/
  | start
  /-- `STAT` (R143). -/
  | stat
  /-- `RDB k`: read digest byte `k` (R204). -/
  | rdb (k : Nat)
  /-- `RDW k`: read digest word `k` (R205). -/
  | rdw (k : Nat)
  /-- `RDH k`: read hexadecimal character `k` (R206). -/
  | rdh (k : Nat)
  /-- `XSTEP i`: expansion step `i` (R161). -/
  | xstep (i : Nat)
  /-- `HINIT`: initialise the hash state (R180). -/
  | hinit
  /-- `RSTEP1 t`: round `t` of round phase 1 (R184). -/
  | rstep1 (t : Nat)
  /-- `RSTEP2 t`: round `t` of round phase 2 (R185). -/
  | rstep2 (t : Nat)
  /-- `RSTEP3 t`: round `t` of round phase 3 (R186). -/
  | rstep3 (t : Nat)
  /-- `RSTEP4 t`: round `t` of round phase 4 (R187). -/
  | rstep4 (t : Nat)
  /-- `FIN`: final addition (R200). -/
  | fin
  deriving DecidableEq, Repr

end Sys2Proof
end

