-- ==== Sys2Proof/WellFormed.lean ====
section
/-! DEFINITION. Which instructions are well formed: the operand ranges of spec/30_encoding.md R74 (commands) and R78
(micro-operations). -/

namespace Sys2Proof

/-- The operand of the instruction is in the range its row of the spec allows. -/
def Instr.wellFormed : Instr → Bool
  | .nop => true
  | .clr => true
  | .pushb _ => true
  | .pushw _ => true
  | .start => true
  | .stat => true
  | .rdb k => decide (k < Config.digestBytes)
  | .rdw k => decide (k < Config.nAcc)
  | .rdh k => decide (k < Config.hexChars)
  | .xstep i => decide (i < Config.nExp)
  | .hinit => true
  | .rstep1 t => decide (t < 20)
  | .rstep2 t => decide (20 ≤ t ∧ t < 40)
  | .rstep3 t => decide (40 ≤ t ∧ t < 60)
  | .rstep4 t => decide (60 ≤ t ∧ t < 80)
  | .fin => true

/-- The instruction is a host command (it has a frame and a response); otherwise it is a micro-operation (R70). -/
def Instr.isCommand : Instr → Bool
  | .nop => true
  | .clr => true
  | .pushb _ => true
  | .pushw _ => true
  | .start => true
  | .stat => true
  | .rdb _ => true
  | .rdw _ => true
  | .rdh _ => true
  | .xstep _ => false
  | .hinit => false
  | .rstep1 _ => false
  | .rstep2 _ => false
  | .rstep3 _ => false
  | .rstep4 _ => false
  | .fin => false

end Sys2Proof
end

