-- ==== Sys2Proof/Decode.lean ====
section
/-! DEFINITION. Decoding of command frames and of sequencer words, total, rejecting by name, and the encoder
(spec/30_encoding.md R71, R74, R75, R76, R78, R79). -/

namespace Sys2Proof

/-- What plays the part of an instruction word (R70): a command frame, or the sequencer word. -/
inductive CodeWord where
  | frame (c : Frame)
  | seq (q : SeqWord)
  deriving DecidableEq, Repr

/-- Why a frame spells no command (the items of R76), or why a sequencer word selects no micro-operation (R78, R79). -/
inductive Rejection where
  /-- R76 item 1: `RSV` is not 0. -/
  | reservedField
  /-- R76 item 2: `OP` is 0x9 to 0xF. -/
  | reservedOpcode
  /-- R76 item 3: `NOP`, `CLR`, `START` or `STAT` with `IDX` or `DATA` not 0. -/
  | operandNotAllowed
  /-- R76 item 4: `PUSHB` with `IDX` or `DATA[31:8]` not 0. -/
  | pushbOperand
  /-- R76 item 5: `PUSHW` with `IDX` not 0. -/
  | pushwIndex
  /-- R76 item 6: `RDB`, `RDW` or `RDH` with `DATA` not 0. -/
  | readData
  /-- R76 item 7: `RDB`, `RDW` or `RDH` with `IDX` out of range. -/
  | indexRange
  /-- R78, last row: in (IDLE, 0), (DONE, 0), (ERROR, 0) the sequencer has no step. -/
  | noMicroOp
  /-- R79: a sequencer word that is never reached and has no meaning. -/
  | unreachedSequencerWord
  deriving DecidableEq, Repr

/-- What decoding answers. -/
inductive Decoded where
  | instr (i : Instr)
  | rejected (why : Rejection)
  deriving DecidableEq, Repr

/-- `OP = C[47:44]` (R71). -/
def frameOp (c : Frame) : BitVec 4 := c.extractLsb' 44 4

/-- `RSV = C[43:40]` (R71). -/
def frameRsv (c : Frame) : BitVec 4 := c.extractLsb' 40 4

/-- `IDX = C[39:32]` (R71). -/
def frameIdx (c : Frame) : Byte := c.extractLsb' 32 8

/-- `DATA = C[31:0]` (R71). -/
def frameData (c : Frame) : Word := c.extractLsb' 0 32

/-- A command without operands: `IDX` and `DATA` must be 0 (R74, R76 item 3). -/
def decodeBare (i : Instr) (idx : Byte) (data : Word) : Decoded :=
  if idx = 0 ∧ data = 0 then .instr i else .rejected .operandNotAllowed

/-- An output read: `DATA` must be 0 and `IDX` below `bound` (R74, R76 items 6 and 7). -/
def decodeRead (mk : Nat → Instr) (bound : Nat) (idx : Byte) (data : Word) : Decoded :=
  if data ≠ 0 then .rejected .readData
  else if idx.toNat < bound then .instr (mk idx.toNat)
  else .rejected .indexRange

/-- The opcode map of commands (R74) on a frame whose `RSV` is 0. -/
def decodeOp (op : BitVec 4) (idx : Byte) (data : Word) : Decoded :=
  if op = 0x0#4 then decodeBare .nop idx data
  else if op = 0x1#4 then decodeBare .clr idx data
  else if op = 0x2#4 then
    if idx = 0 ∧ data.extractLsb' 8 24 = 0 then .instr (.pushb (data.extractLsb' 0 8)) else .rejected .pushbOperand
  else if op = 0x3#4 then
    if idx = 0 then .instr (.pushw data) else .rejected .pushwIndex
  else if op = 0x4#4 then decodeBare .start idx data
  else if op = 0x5#4 then decodeBare .stat idx data
  else if op = 0x6#4 then decodeRead .rdb Config.digestBytes idx data
  else if op = 0x7#4 then decodeRead .rdw Config.nAcc idx data
  else if op = 0x8#4 then decodeRead .rdh Config.hexChars idx data
  else .rejected .reservedOpcode

/-- A command frame decodes to one of the nine commands or is illegal (R76): total on every 48-bit value. -/
def decodeFrame (c : Frame) : Decoded :=
  if frameRsv c = 0 then decodeOp (frameOp c) (frameIdx c) (frameData c) else .rejected .reservedField

/-- The micro-operation of a round (R78): the range of `t = CNT` selects the round phase. -/
def decodeRound (t : Nat) : Decoded :=
  if t < 20 then .instr (.rstep1 t)
  else if t < 40 then .instr (.rstep2 t)
  else if t < 60 then .instr (.rstep3 t)
  else if t < 80 then .instr (.rstep4 t)
  else .rejected .unreachedSequencerWord

/-- A row of R78 that needs `CNT = 0`. -/
def decodeAtZero (cnt : Nat) (d : Decoded) : Decoded :=
  if cnt = 0 then d else .rejected .unreachedSequencerWord

/-- The selection table of R78 on `PH` and `CNT`; every other word is never reached (R79). -/
def decodePhase (ph : BitVec 3) (cnt : Nat) : Decoded :=
  if ph = 1#3 then if cnt < Config.nExp then .instr (.xstep cnt) else .rejected .unreachedSequencerWord
  else if ph = 2#3 then decodeAtZero cnt (.instr .hinit)
  else if ph = 3#3 then decodeRound cnt
  else if ph = 4#3 then decodeAtZero cnt (.instr .fin)
  else if ph = 7#3 then .rejected .unreachedSequencerWord
  else decodeAtZero cnt (.rejected .noMicroOp)

/-- A sequencer word `SEQ = PH[2:0] ‖ CNT[6:0]` selects a micro-operation or none (R78). -/
def decodeSeq (q : SeqWord) : Decoded :=
  decodePhase (q.extractLsb' 7 3) (q.extractLsb' 0 7).toNat

/-- The answer is not that of a sequencer word that is never reached (R79). -/
def Decoded.isReached : Decoded → Bool
  | .rejected .unreachedSequencerWord => false
  | .rejected _ => true
  | .instr _ => true

/-- The decoder. -/
def decode : CodeWord → Decoded
  | .frame c => decodeFrame c
  | .seq q => decodeSeq q

/-- `OP ‖ RSV ‖ IDX ‖ DATA` with `RSV = 0` (R71). -/
def packFrame (op : BitVec 4) (idx : Byte) (data : Word) : Frame :=
  op ++ 0#4 ++ idx ++ data

/-- `PH ‖ CNT` (R78). -/
def packSeq (ph : BitVec 3) (cnt : BitVec 7) : SeqWord := ph ++ cnt

/-- The encoder, from the tables of R74 and R78. -/
def encode : Instr → CodeWord
  | .nop => .frame (packFrame 0x0 0 0)
  | .clr => .frame (packFrame 0x1 0 0)
  | .pushb b => .frame (packFrame 0x2 0 (0#24 ++ b))
  | .pushw w => .frame (packFrame 0x3 0 w)
  | .start => .frame (packFrame 0x4 0 0)
  | .stat => .frame (packFrame 0x5 0 0)
  | .rdb k => .frame (packFrame 0x6 (BitVec.ofNat 8 k) 0)
  | .rdw k => .frame (packFrame 0x7 (BitVec.ofNat 8 k) 0)
  | .rdh k => .frame (packFrame 0x8 (BitVec.ofNat 8 k) 0)
  | .xstep i => .seq (packSeq 1 (BitVec.ofNat 7 i))
  | .hinit => .seq (packSeq 2 0)
  | .rstep1 t => .seq (packSeq 3 (BitVec.ofNat 7 t))
  | .rstep2 t => .seq (packSeq 3 (BitVec.ofNat 7 t))
  | .rstep3 t => .seq (packSeq 3 (BitVec.ofNat 7 t))
  | .rstep4 t => .seq (packSeq 3 (BitVec.ofNat 7 t))
  | .fin => .seq (packSeq 4 0)

/-- The frame of a host command; of a micro-operation, which no frame carries (R70), an illegal frame. -/
def commandFrame (i : Instr) : Frame :=
  match encode i with
  | .frame c => c
  | .seq _ => 0xF00000000000

/-- A number as the opcode table numbers an instruction's bits: a row of at most two bytes is a sequencer word (10 bits,
format UOP), any other row a command frame (48 bits, format CMD). A number with bits above the word is no word. -/
def tableWord (nbits w : Nat) : Option CodeWord :=
  if nbits ≤ 16 then
    if w < 2 ^ 10 then some (.seq (BitVec.ofNat 10 w)) else none
  else
    if w < 2 ^ 48 then some (.frame (BitVec.ofNat 48 w)) else none

/-- The instruction that the decoder reads from a word of the opcode table. -/
def decodeTableWord (nbits w : Nat) : Option Instr :=
  match tableWord nbits w with
  | none => none
  | some cw =>
    match decode cw with
    | .instr i => some i
    | .rejected _ => none

end Sys2Proof
end

