-- ==== Sys2Proof/Machine/State.lean ====
section
/-! DEFINITION. The state of one instance of custom_hash_core as plain data (spec/10_state.md R20 to R28, R34), with the host
port and the order of the two agents beside it (spec/30_encoding.md R70 to R72, spec/70_reset_and_hazards.md R258). -/

namespace Sys2Proof.Machine

/-- The phase register `PH`, 3 bits, by the names of R26. -/
inductive Phase where
  /-- 0: ready to load a message. -/
  | idle
  /-- 1: the expansion. -/
  | expand
  /-- 2: next is `HINIT`. -/
  | init
  /-- 3: the rounds. -/
  | round
  /-- 4: next is `FIN`. -/
  | final
  /-- 5: the digest is valid. -/
  | done
  /-- 6: the computation has failed with `InvalidData`. -/
  | error
  /-- 7: the code that is never reached (R26, R79); no operation writes it. -/
  | unreached
  deriving DecidableEq, Repr

/-- The error cause register `ECAUSE`, 2 bits, by the names of R28. -/
inductive ECause where
  /-- 0. -/
  | none
  /-- 1: a `START` with `LEN = 0`. -/
  | empty
  /-- 2: a load beyond 1024 bytes. -/
  | overflow
  /-- 3: a buffer access of the core outside the buffer. -/
  | internal
  deriving DecidableEq, Repr

/-- The status codes of a response (R73). -/
inductive Status where
  /-- 0x00. -/
  | ok
  /-- 0x01. -/
  | invalidData
  /-- 0x02. -/
  | refused
  /-- 0x03. -/
  | illegal
  deriving DecidableEq, Repr

/-- The buffer `BUF` (R20): addresses strictly rising and below 1024, no zero byte listed; an unlisted address reads 0x00,
the reset contents of R34. `Memory.wf` (Machine/Ops.lean) says the form. -/
abbrev Memory := List Host.Cell

/-- The whole state of one instance of the core (the table of spec/10_state.md): there is no other. -/
structure CoreState where
  /-- `PH` (R26). -/
  ph : Phase
  /-- `CNT` (R26). -/
  cnt : BitVec 7
  /-- `ECAUSE` (R28). -/
  ecause : ECause
  /-- `LEN`, the count of bytes loaded (R23). -/
  len : BitVec 11
  /-- `BUF[0..1023]` (R20). -/
  buf : Memory
  /-- `A` (R24). -/
  a : Word
  /-- `B` (R24). -/
  b : Word
  /-- `C` (R24). -/
  c : Word
  /-- `D` (R24). -/
  d : Word
  /-- `E` (R24). -/
  e : Word
  deriving DecidableEq, Repr

/-- The reset values of R34. -/
def CoreState.reset : CoreState :=
  { ph := .idle, cnt := 0, ecause := .none, len := 0, buf := [], a := 0, b := 0, c := 0, d := 0, e := 0 }

/-- One turn of the environment or of an agent: the steps of one instance form a single sequence (R60), and which agent
makes the next one is not fixed by the spec while BUSY (R258). -/
inductive Turn where
  /-- The host sends this command frame (R70). -/
  | command (c : Frame)
  /-- The sequencer takes the step it has, if it has one (R144). -/
  | sequencer
  /-- Reset is applied (R250). -/
  | reset
  deriving DecidableEq, Repr

/-- The machine: one core, the turns still to come (first first; when none is left the sequencer goes on, R146), and the
response frames given so far (newest first; R72). -/
structure State where
  core : CoreState
  turns : List Turn
  responses : List Reply
  deriving DecidableEq, Repr

/-- The machine right after reset: the core as R34 says, no turn waiting, no response given. -/
def State.reset : State :=
  { core := CoreState.reset, turns := [], responses := [] }

/-- Why the machine stops. -/
inductive Fault where
  /-- The sequencer is stuck: raised by a sequencer turn when `(PH, CNT)` is no row of R27 (Machine/Fetch.lean), and by a
  micro-operation whose step index lies outside its range (`State.microOp`). The spec gives such a word no meaning and calls
  it never reached (R79; U6 "stuck"). Safe: the machine stops where the spec says nothing happens. -/
  | stuckSequencer
  deriving DecidableEq, Repr

/-- Why an instruction is refused by the model. -/
inductive Refusal where
  /-- The instruction has no meaning in this model yet: raised by an arm of `exec` only; no arm does now. Safe. -/
  | notModelled (mnemonic : String)
  deriving DecidableEq, Repr

end Sys2Proof.Machine
end

