-- ==== Sys2Proof/Machine/Operands.lean ====
section
/-! DEFINITION. Codes of the named registers, the word operators (spec/00_scope.md R8), the two byte orders
(spec/20_memory.md R52, R53) and the operand of a micro-operation (spec/30_encoding.md R75, R78). -/

namespace Sys2Proof.Machine

/-- The three bits of `PH` (R26). -/
def Phase.code : Phase → BitVec 3
  | .idle => 0
  | .expand => 1
  | .init => 2
  | .round => 3
  | .final => 4
  | .done => 5
  | .error => 6
  | .unreached => 7

/-- The phase a three-bit code names (R26). -/
def Phase.ofCode (p : BitVec 3) : Phase :=
  if p = 0 then .idle
  else if p = 1 then .expand
  else if p = 2 then .init
  else if p = 3 then .round
  else if p = 4 then .final
  else if p = 5 then .done
  else if p = 6 then .error
  else .unreached

/-- The two bits of `ECAUSE` (R28). -/
def ECause.code : ECause → BitVec 2
  | .none => 0
  | .empty => 1
  | .overflow => 2
  | .internal => 3

/-- The eight bits of a status (R73). -/
def Status.code : Status → BitVec 8
  | .ok => 0x00
  | .invalidData => 0x01
  | .refused => 0x02
  | .illegal => 0x03

/-- The sequencer word `SEQ = PH ‖ CNT` of a state (R78). -/
def CoreState.seqWord (s : CoreState) : SeqWord := packSeq s.ph.code s.cnt

/-- `(PH, CNT)` is a row of R27: it selects a micro-operation, or is one of the three rows with none (R78). -/
def CoreState.pairLegal (s : CoreState) : Bool :=
  (decodeSeq s.seqWord).isReached

/-- `rol32(x, n)` for `n` in 0 to 31: a cyclic left shift (R8). -/
def rol32 (x : Word) (n : Nat) : Word := (x <<< n) ||| (x >>> (32 - n))

/-- The four bytes of a word, least significant first (R51). -/
def leBytes (v : Word) : List Byte :=
  [v.extractLsb' 0 8, v.extractLsb' 8 8, v.extractLsb' 16 8, v.extractLsb' 24 8]

/-- The word of four bytes, the first least significant (R21, R50). -/
def leWord (b0 b1 b2 b3 : Byte) : Word := b3 ++ b2 ++ b1 ++ b0

/-- `be32(v)`: the four bytes of a word, most significant first (R202). -/
def be32 (v : Word) : List Byte :=
  [v.extractLsb' 24 8, v.extractLsb' 16 8, v.extractLsb' 8 8, v.extractLsb' 0 8]

end Sys2Proof.Machine
end

