-- ==== Sys2Proof/Machine/Ops.lean ====
section
/-! DEFINITION. The named operations over the buffer and the registers: byte and word access (spec/20_memory.md R50, R51,
R58), the response (spec/30_encoding.md R72), the phase gate (R77), the error entry (spec/60_exceptions.md R224) and the way
out of it (R226), and the frame of a micro-operation (R58, R79, R144). -/

namespace Sys2Proof.Machine

/-! ## The buffer -/

/-- The canonical form from address `lo` on: addresses strictly rising, below 1024, no zero byte listed. -/
def Memory.wfFrom : Nat → Memory → Bool
  | _, [] => true
  | lo, (k, v) :: m => decide (lo ≤ k) && decide (k < Config.bufBytes) && decide (v ≠ 0) && Memory.wfFrom (k + 1) m

/-- The buffer is in its canonical form. -/
def Memory.wf (m : Memory) : Bool := Memory.wfFrom 0 m

/-- `BUF[a]` (R20): an address that is not listed reads as 0x00, the reset contents (R34). -/
def Memory.byte : Memory → Nat → Byte
  | [], _ => 0
  | (k, v) :: m, a => if k = a then v else Memory.byte m a

/-- `BUF[a] <- b`: writing 0x00 removes the entry. -/
def Memory.set : Memory → Nat → Byte → Memory
  | [], a, b => if b = 0 then [] else [(a, b)]
  | (k, v) :: m, a, b =>
    if a < k then (if b = 0 then (k, v) :: m else (a, b) :: (k, v) :: m)
    else if a = k then (if b = 0 then m else (a, b) :: m)
    else (k, v) :: Memory.set m a b

/-- `MemWrite`: the bytes `bs` at `a`, `a + 1`, … (R51). Its callers keep inside the buffer (R58). -/
def Memory.writeBytes : Memory → Nat → List Byte → Memory
  | m, _, [] => m
  | m, a, b :: bs => Memory.writeBytes (Memory.set m a b) (a + 1) bs

/-- `W[i] = x[i] = MemRead(4i, 4)` (R21, R50). -/
def Memory.word (m : Memory) (i : Nat) : Word :=
  leWord (m.byte (4 * i)) (m.byte (4 * i + 1)) (m.byte (4 * i + 2)) (m.byte (4 * i + 3))

/-- `W[i] <- v`, that is `MemWrite(4i, 4, v)` (R21, R51). -/
def Memory.writeWord (m : Memory) (i : Nat) (v : Word) : Memory := m.writeBytes (4 * i) (leBytes v)

/-! ## The port -/

/-- The response frame `ST ‖ DATA` (R72). -/
def reply (st : Status) (data : Word) : Reply := st.code ++ data

/-- `respond(st, data)` (R72). -/
def State.respond (st : Status) (data : Word) (s : State) : State :=
  { s with responses := reply st data :: s.responses }

/-- The machine with another core state. -/
def State.withCore (s : State) (c : CoreState) : State := { s with core := c }

/-! ## The error entry and the way out -/

/-- `raise InvalidData(cause)` on the registers: `PH <- ERROR; CNT <- 0; ECAUSE <- cause`, nothing else (R224). -/
def CoreState.enterError (cause : ECause) (c : CoreState) : CoreState :=
  { c with ph := .error, cnt := 0, ecause := cause }

/-- `raise InvalidData(cause)` by a command: the error entry with the response `INVALID_DATA` (R224). -/
def State.raiseInvalidData (cause : ECause) (s : State) : State :=
  (s.withCore (s.core.enterError cause)).respond .invalidData 0

/-- The clear state: what `CLR` and reset make of any state (R34, R121, R250, R251), the only ways out of `ERROR` (R226). -/
def State.clear (s : State) : State := s.withCore CoreState.reset

/-! ## The phase gate of commands -/

/-- Checks 3 and 4 of R77 before a command that needs the phase `need`: in `ERROR` it answers `INVALID_DATA`, in another
phase, or where `(PH, CNT)` is no row of R27 (R79), `REFUSED`; neither changes the core. -/
def State.whenPhase (need : Phase) (s done : State) : State :=
  if s.core.pairLegal = false then s.respond .refused 0
  else if s.core.ph = .error then s.respond .invalidData 0
  else if s.core.ph = need then done
  else s.respond .refused 0

/-! ## The loader's append and the output reads -/

/-- The bytes `bs` appended at `LEN` (R122, R123): all of them, or none and `InvalidData(OVERFLOW)`. -/
def State.appendBytes (bs : List Byte) (s : State) : State :=
  if s.core.len.toNat + bs.length ≤ Config.bufBytes then
    (s.withCore { s.core with
      buf := s.core.buf.writeBytes s.core.len.toNat bs
      len := s.core.len + BitVec.ofNat 11 bs.length }).respond .ok 0
  else s.raiseInvalidData .overflow

/-- An output read of a view of the accumulators (R77, R204 to R206): an index outside the view is an illegal frame (R76
item 7), checked before the phase; the read itself needs `DONE`. -/
def State.readOutput (view : Option Word) (s : State) : State :=
  match view with
  | none => s.respond .illegal 0
  | some data => s.whenPhase .done (s.respond .ok data)

/-! ## The frame of a micro-operation -/

/-- A micro-operation whose greatest word index is `top` and whose step index lies in its range when `inRange`: an index
above 255 makes no access and raises `InvalidData(INTERNAL)`, with no response (R58, R224); a step index outside the range
has no meaning (R79); otherwise the registers become `after`. -/
def State.microOp (top : Nat) (inRange : Bool) (s : State) (after : CoreState) : Host.Outcome State Fault Refusal :=
  if Config.nWords ≤ top then .next (s.withCore (s.core.enterError .internal))
  else if inRange then .next (s.withCore after)
  else .fault .stuckSequencer

end Sys2Proof.Machine
end

