-- ==== Sys2Proof/Machine/Expander.lean ====
section
/-! DEFINITION. The message_schedule_expander: `XSTEP` (spec/43_message_schedule_expander.md). The formula is deliberately
not the canonical one (R163). -/

namespace Sys2Proof.Machine

/-- The shift amount `s = (w0 XOR w2 XOR w8 XOR w13) AND 0x1F` (R161). -/
def expandShift (w0 w2 w8 w13 : Word) : Nat := ((w0 ^^^ w2 ^^^ w8 ^^^ w13) &&& 0x1F).toNat

/-- The expanded word: the fixed value 1 rotated by the shift amount (R161). -/
def expandWord (w0 w2 w8 w13 : Word) : Word := rol32 1 (expandShift w0 w2 w8 w13)

/-- The word that `XSTEP i` computes from the buffer: its sources are `W[i]`, `W[i+2]`, `W[i+8]`, `W[i+13]` (R161). -/
def Memory.expansion (m : Memory) (i : Nat) : Word :=
  expandWord (m.word i) (m.word (i + 2)) (m.word (i + 8)) (m.word (i + 13))

/-- The registers after `XSTEP i`: `W[i+16]` is written, and `(PH, CNT)` advances (R144, R161). -/
def CoreState.xstep (i : Nat) (c : CoreState) : CoreState :=
  if i = 63 then { c with buf := c.buf.writeWord (i + 16) (c.buf.expansion i), ph := .init, cnt := 0 }
  else { c with buf := c.buf.writeWord (i + 16) (c.buf.expansion i), cnt := BitVec.ofNat 7 (i + 1) }

/-- `XSTEP i` (R161), `i` in 0 to 63; the greatest word index is `i + 16` (R58). -/
def execXstep (i : Nat) (s : State) : Host.Outcome State Fault Refusal :=
  s.microOp (i + 16) (decide (i < Config.nExp)) (s.core.xstep i)

end Sys2Proof.Machine
end

