-- ==== Sys2Proof/Machine/Loader.lean ====
section
/-! DEFINITION. The buffer loader: `CLR`, `PUSHB`, `PUSHW` (spec/41_buffer_loader.md). -/

namespace Sys2Proof.Machine

/-- `CLR` (R121): every register to its reset value, in every phase; `respond(OK, 0)`. -/
def execClr (s : State) : Host.Outcome State Fault Refusal :=
  .next (s.clear.respond .ok 0)

/-- `PUSHB b` (R122): `MemWrite(LEN, 1, b)`, `LEN <- LEN + 1`; `OVERFLOW` at `LEN = 1024`. -/
def execPushb (b : Byte) (s : State) : Host.Outcome State Fault Refusal :=
  .next (s.whenPhase .idle (s.appendBytes [b]))

/-- `PUSHW w` (R123): `MemWrite(LEN, 4, w)`, `LEN <- LEN + 4`; `OVERFLOW` at `LEN` above 1020, all or nothing. -/
def execPushw (w : Word) (s : State) : Host.Outcome State Fault Refusal :=
  .next (s.whenPhase .idle (s.appendBytes (leBytes w)))

end Sys2Proof.Machine
end

