-- ==== Sys2Proof/Machine/Flags.lean ====
section
/-! DEFINITION. The three status flags and the status word (spec/10_state.md R29, R30). They are functions of the state, not
storage; no arithmetic operation sets a flag. -/

namespace Sys2Proof.Machine

/-- `BUSY`: `PH` is `EXPAND`, `INIT`, `ROUND` or `FINAL` (R29). -/
def CoreState.busy (c : CoreState) : Bool :=
  match c.ph with
  | .expand => true
  | .init => true
  | .round => true
  | .final => true
  | .idle => false
  | .done => false
  | .error => false
  | .unreached => false

/-- `DONE`: `PH = DONE` (R29). -/
def CoreState.done (c : CoreState) : Bool := decide (c.ph = .done)

/-- `ERR`: `PH = ERROR` (R29). -/
def CoreState.err (c : CoreState) : Bool := decide (c.ph = .error)

/-- The status word `zext_32(LEN ‖ 00 ‖ ECAUSE ‖ 0 ‖ ERR ‖ DONE ‖ BUSY)` (R30, R143). -/
def CoreState.statusWord (c : CoreState) : Word :=
  (c.len ++ 0#2 ++ c.ecause.code ++ 0#1 ++ BitVec.ofBool c.err ++ BitVec.ofBool c.done ++ BitVec.ofBool c.busy).setWidth 32

end Sys2Proof.Machine
end

