-- ==== Sys2Proof/Machine/Sequencer.lean ====
section
/-! DEFINITION. Sequencer control: `NOP`, `START`, `STAT` (spec/42_sequencer_control.md). -/

namespace Sys2Proof.Machine

/-- `NOP` (R141): `respond(OK, 0)` in every phase. -/
def execNop (s : State) : Host.Outcome State Fault Refusal :=
  .next (s.respond .ok 0)

/-- The core at the start of a run: `PH <- EXPAND; CNT <- 0` (R142). -/
def CoreState.startRun (c : CoreState) : CoreState := { c with ph := .expand, cnt := 0 }

/-- `START` (R142): with `LEN = 0` it raises `InvalidData(EMPTY)`, else the run starts. -/
def execStart (s : State) : Host.Outcome State Fault Refusal :=
  .next (s.whenPhase .idle
    (if s.core.len = 0 then s.raiseInvalidData .empty else (s.withCore s.core.startRun).respond .ok 0))

/-- `STAT` (R143): `respond(OK, status word)` in every phase. -/
def execStat (s : State) : Host.Outcome State Fault Refusal :=
  .next (s.respond .ok s.core.statusWord)

end Sys2Proof.Machine
end

