-- ==== Sys2Proof/Machine/Compression.lean ====
section
/-! DEFINITION. The compression_round_pipeline with the hash_state_accumulator: `HINIT`, `RSTEP1` to `RSTEP4`
(spec/44_compression_rounds.md). The constants are hardwired (spec/10_state.md R25); they are irreducible, so that no
elaboration step computes with them unasked. -/

namespace Sys2Proof.Machine

/-- The initial constant of `A` (R180). -/
@[irreducible] def iv0 : Word := 0x67452301
/-- The initial constant of `B` (R180). -/
@[irreducible] def iv1 : Word := 0xEFCDAB89
/-- The initial constant of `C` (R180). -/
@[irreducible] def iv2 : Word := 0x98BADCFE
/-- The initial constant of `D` (R180). -/
@[irreducible] def iv3 : Word := 0x10325476
/-- The initial constant of `E` (R180). -/
@[irreducible] def iv4 : Word := 0xC3D2E1F0

/-- The constant of round phase 1 (R182). -/
@[irreducible] def k1 : Word := 0x5A827999
/-- The constant of round phase 2 (R182). -/
@[irreducible] def k2 : Word := 0x6ED9EBA1
/-- The constant of round phase 3 (R182). -/
@[irreducible] def k3 : Word := 0x8F1BBCDC
/-- The constant of round phase 4 (R182). -/
@[irreducible] def k4 : Word := 0xCA62C1D6

/-- `F1`, choose: `(B AND C) OR ((NOT B) AND D)` (R181). -/
def mixChoose (b c d : Word) : Word := (b &&& c) ||| (~~~b &&& d)

/-- `F2 = F4`, parity: `B XOR C XOR D` (R181). -/
def mixParity (b c d : Word) : Word := b ^^^ c ^^^ d

/-- `F3`, majority: `(B AND C) OR (B AND D) OR (C AND D)` (R181). -/
def mixMajority (b c d : Word) : Word := (b &&& c) ||| (b &&& d) ||| (c &&& d)

/-- The registers after `HINIT` (R180). -/
def CoreState.hinit (s : CoreState) : CoreState :=
  { s with a := iv0, b := iv1, c := iv2, d := iv3, e := iv4, ph := .round, cnt := 0 }

/-- The new `A` of a round: `w +32 rol32(A, 5) +32 E +32 f +32 K` (R183). -/
def roundSum (w a e f k : Word) : Word := w + rol32 a 5 + e + f + k

/-- The accumulators after a round that consumes the word `w` (R183). -/
def CoreState.mixIn (f : Word → Word → Word → Word) (k w : Word) (s : CoreState) : CoreState :=
  { s with a := roundSum w s.a s.e (f s.b s.c s.d) k, b := s.a, c := rol32 s.b 30, d := s.c, e := s.d }

/-- The registers after round `t` with mixing function `f` and constant `k`: the round consumes `W[t]` (R188) and
`(PH, CNT)` advances (R144, R183). -/
def CoreState.roundStep (f : Word → Word → Word → Word) (k : Word) (t : Nat) (s : CoreState) : CoreState :=
  if t = 79 then { s.mixIn f k (s.buf.word t) with ph := .final, cnt := 0 }
  else { s.mixIn f k (s.buf.word t) with cnt := BitVec.ofNat 7 (t + 1) }

/-- `HINIT` (R180): it accesses no word. -/
def execHinit (s : State) : Host.Outcome State Fault Refusal :=
  .next (s.withCore s.core.hinit)

/-- `RSTEP1 t` (R184), `t` in 0 to 19. -/
def execRstep1 (t : Nat) (s : State) : Host.Outcome State Fault Refusal :=
  s.microOp t (decide (t < 20)) (s.core.roundStep mixChoose k1 t)

/-- `RSTEP2 t` (R185), `t` in 20 to 39. -/
def execRstep2 (t : Nat) (s : State) : Host.Outcome State Fault Refusal :=
  s.microOp t (decide (20 ≤ t ∧ t < 40)) (s.core.roundStep mixParity k2 t)

/-- `RSTEP3 t` (R186), `t` in 40 to 59. -/
def execRstep3 (t : Nat) (s : State) : Host.Outcome State Fault Refusal :=
  s.microOp t (decide (40 ≤ t ∧ t < 60)) (s.core.roundStep mixMajority k3 t)

/-- `RSTEP4 t` (R187), `t` in 60 to 79. -/
def execRstep4 (t : Nat) (s : State) : Host.Outcome State Fault Refusal :=
  s.microOp t (decide (60 ≤ t ∧ t < 80)) (s.core.roundStep mixParity k4 t)

end Sys2Proof.Machine
end

