-- ==== Sys2Proof/Machine/Serializer.lean ====
section
/-! DEFINITION. The final addition and the output_serializer: `FIN`, `RDB`, `RDW`, `RDH`
(spec/45_output_serializer.md). -/

namespace Sys2Proof.Machine

/-- The registers after `FIN`: each accumulator plus its initial constant, `PH <- DONE` (R200). -/
def CoreState.fin (s : CoreState) : CoreState :=
  { s with a := s.a + iv0, b := s.b + iv1, c := s.c + iv2, d := s.d + iv3, e := s.e + iv4, ph := .done }

/-- The output words `H[0]` to `H[4]` (R201). -/
def CoreState.digestWords (s : CoreState) : List Word := [s.a, s.b, s.c, s.d, s.e]

/-- The digest bytes `DG[0]` to `DG[19]` (R202). -/
def CoreState.digestBytes (s : CoreState) : List Byte := s.digestWords.flatMap be32

/-- `hexchar(n)` as a character code: `0x30 + n` for `n ≤ 9`, `0x57 + n` otherwise (R203). -/
def hexChar (n : BitVec 4) : Byte :=
  if n.toNat ≤ 9 then 0x30 + n.setWidth 8 else 0x57 + n.setWidth 8

/-- The two characters of a byte, most significant nibble first (R203). -/
def hexOfByte (b : Byte) : List Byte := [hexChar (b.extractLsb' 4 4), hexChar (b.extractLsb' 0 4)]

/-- The characters `HX[0]` to `HX[39]` (R203). -/
def CoreState.hexDigest (s : CoreState) : List Byte := s.digestBytes.flatMap hexOfByte

/-- `FIN` (R200): it accesses no word. -/
def execFin (s : State) : Host.Outcome State Fault Refusal :=
  .next (s.withCore s.core.fin)

/-- `RDB k` (R204): `zext_32(DG[k])`, `k` in 0 to 19. -/
def execRdb (k : Nat) (s : State) : Host.Outcome State Fault Refusal :=
  .next (s.readOutput (s.core.digestBytes[k]?.map (BitVec.setWidth 32)))

/-- `RDW k` (R205): `H[k]`, `k` in 0 to 4. -/
def execRdw (k : Nat) (s : State) : Host.Outcome State Fault Refusal :=
  .next (s.readOutput s.core.digestWords[k]?)

/-- `RDH k` (R206): `zext_32(HX[k])`, `k` in 0 to 39. -/
def execRdh (k : Nat) (s : State) : Host.Outcome State Fault Refusal :=
  .next (s.readOutput (s.core.hexDigest[k]?.map (BitVec.setWidth 32)))

end Sys2Proof.Machine
end

