-- ==== Sys2Proof/Machine/Dispatch.lean ====
section
/-! DEFINITION. The dispatch of every operation to its meaning: one arm per row of spec/opcode_table.json. -/

namespace Sys2Proof.Machine

def exec (i : Instr) (s : State) : Host.Outcome State Fault Refusal :=
  match i with
  | .nop => Sys2Proof.Machine.execNop s
  | .clr => Sys2Proof.Machine.execClr s
  | .pushb b => Sys2Proof.Machine.execPushb b s
  | .pushw w => Sys2Proof.Machine.execPushw w s
  | .start => Sys2Proof.Machine.execStart s
  | .stat => Sys2Proof.Machine.execStat s
  | .rdb k => Sys2Proof.Machine.execRdb k s
  | .rdw k => Sys2Proof.Machine.execRdw k s
  | .rdh k => Sys2Proof.Machine.execRdh k s
  | .xstep i' => Sys2Proof.Machine.execXstep i' s
  | .hinit => Sys2Proof.Machine.execHinit s
  | .rstep1 t => Sys2Proof.Machine.execRstep1 t s
  | .rstep2 t => Sys2Proof.Machine.execRstep2 t s
  | .rstep3 t => Sys2Proof.Machine.execRstep3 t s
  | .rstep4 t => Sys2Proof.Machine.execRstep4 t s
  | .fin => Sys2Proof.Machine.execFin s

end Sys2Proof.Machine
end

