-- ==== Sys2Proof/Machine/Fetch.lean ====
section
/-! DEFINITION. Which agent moves next and what it does: the front of the turn list, the decoding of a command frame
(spec/30_encoding.md R76, R77 item 1) and the selection of a micro-operation (R78, R79; spec/42_sequencer_control.md R144). -/

namespace Sys2Proof.Machine

/-- What the next turn is. -/
inductive Fetched where
  /-- A command or a micro-operation to run. -/
  | run (i : Instr)
  /-- A frame that spells no command. -/
  | illegalFrame
  /-- A sequencer turn where the sequencer has no step. -/
  | noStep
  /-- A sequencer turn at a sequencer word that has no meaning. -/
  | stuck
  /-- Reset. -/
  | reset
  deriving DecidableEq, Repr

/-- The turn that comes next; when none waits, the sequencer goes on (R146). -/
def State.nextTurn (s : State) : Turn :=
  match s.turns with
  | [] => .sequencer
  | t :: _ => t

/-- The state with the next turn taken off the list. -/
def State.takeTurn (s : State) : State := { s with turns := s.turns.tail }

/-- What a command frame spells (R76). -/
def fetchCommand (c : Frame) : Fetched :=
  match decodeFrame c with
  | .instr i => .run i
  | .rejected _ => .illegalFrame

/-- What the sequencer does at a sequencer word (R78, R79). -/
def fetchSeq (q : SeqWord) : Fetched :=
  match decodeSeq q with
  | .instr i => .run i
  | .rejected .unreachedSequencerWord => .stuck
  | .rejected _ => .noStep

/-- What the next step does. -/
def State.fetch (s : State) : Fetched :=
  match s.nextTurn with
  | .command c => fetchCommand c
  | .sequencer => fetchSeq s.core.seqWord
  | .reset => .reset

/-- A number as a sequencer word; a number above ten bits is none, and is stood for by the word 0x3FF, which has no meaning
(R79). -/
def seqWordOfNat (w : Nat) : SeqWord := if w < 2 ^ 10 then BitVec.ofNat 10 w else 0x3FF

/-- The state in which the very next step is the word `w` of the opcode table: a command frame (48 bits) comes first on the
turn list; a sequencer word (10 bits, two whole bytes) becomes `(PH, CNT)`, and the sequencer moves first. -/
def State.placeWord (s : State) (nbits w : Nat) : State :=
  if nbits ≤ 16 then
    { s with
      core := { s.core with
        ph := Phase.ofCode ((seqWordOfNat w).extractLsb' 7 3)
        cnt := (seqWordOfNat w).extractLsb' 0 7 }
      turns := .sequencer :: s.turns }
  else { s with turns := .command (BitVec.ofNat 48 w) :: s.turns }

end Sys2Proof.Machine
end

