-- ==== Sys2Proof/Machine/Step.lean ====
section
/-! DEFINITION. One step of the machine: one turn, an atomic command, micro-operation or reset (spec/20_memory.md R60). -/

namespace Sys2Proof.Machine

/-- One step. An illegal frame answers `ILLEGAL` and changes no state (R76); a sequencer turn without a step leaves the core
as it is (R144, R235); reset gives the reset values and no response (R250). -/
def step (s : State) : Host.Outcome State Fault Refusal :=
  match s.fetch with
  | .run i => exec i s.takeTurn
  | .illegalFrame => .next (s.takeTurn.respond .illegal 0)
  | .noStep => .next s.takeTurn
  | .stuck => .fault .stuckSequencer
  | .reset => .next s.takeTurn.clear

/-- The state whose next step runs the word `w` of the opcode table. -/
def State.withFetchWord (s : State) (nbits w : Nat) : State := s.placeWord nbits w

end Sys2Proof.Machine
end

