-- ==== Sys2Proof/Machine/Digest.lean ====
section
/-! DEFINITION. The function the hardware computes, `DIGEST` (spec/00_scope.md R10), as the spec's summary writes it: on a
list of 256 words, with `f_t` and `K_t` by the round number. No instruction's meaning uses it; statements compare the
machine with it. -/

namespace Sys2Proof.Machine.Digest

/-- Step 1 of R10: the message in a zero-filled buffer of 1024 bytes. -/
def paddedBuffer (m : List Byte) : List Byte := (m ++ List.replicate 1024 0).take 1024

/-- The little-endian words of a byte string, four bytes a word (R9, R21). -/
def wordsOf : List Byte → List Word
  | b0 :: b1 :: b2 :: b3 :: rest => leWord b0 b1 b2 b3 :: wordsOf rest
  | _ => []

/-- Step 2 of R10 for one `i`: `s = (W[i] XOR W[i+2] XOR W[i+8] XOR W[i+13]) AND 0x1F; W[i+16] <- rol32(1, s)`. -/
def expandAt (w : List Word) (i : Nat) : List Word :=
  w.set (i + 16)
    (rol32 1 ((w.getD i 0 ^^^ w.getD (i + 2) 0 ^^^ w.getD (i + 8) 0 ^^^ w.getD (i + 13) 0) &&& 0x1F).toNat)

/-- Steps 1 and 2 of R10: the 256 words after the 64 expansion steps, in ascending order (R162). -/
def schedule (m : List Byte) : List Word :=
  (List.range 64).foldl expandAt (wordsOf (paddedBuffer m))

/-- The five accumulators as a value. -/
structure Accs where
  a : Word
  b : Word
  c : Word
  d : Word
  e : Word
  deriving DecidableEq, Repr

/-- `f_t` (R181). -/
def mixAt (t : Nat) (b c d : Word) : Word :=
  if t < 20 then (b &&& c) ||| (~~~b &&& d)
  else if t < 40 then b ^^^ c ^^^ d
  else if t < 60 then (b &&& c) ||| (b &&& d) ||| (c &&& d)
  else b ^^^ c ^^^ d

/-- `K_t` (R182). -/
def constAt (t : Nat) : Word :=
  if t < 20 then k1 else if t < 40 then k2 else if t < 60 then k3 else k4

/-- Step 3 of R10 for one `t`. -/
def roundAt (w : List Word) (s : Accs) (t : Nat) : Accs :=
  { a := w.getD t 0 + rol32 s.a 5 + s.e + mixAt t s.b s.c s.d + constAt t
    b := s.a
    c := rol32 s.b 30
    d := s.c
    e := s.d }

/-- The initial accumulators (step 3 of R10). -/
def initial : Accs := ⟨iv0, iv1, iv2, iv3, iv4⟩

/-- Steps 3 and 4 of R10: the 80 rounds and the final addition. -/
def finalAccs (w : List Word) : Accs :=
  let s := (List.range 80).foldl (roundAt w) initial
  ⟨s.a + iv0, s.b + iv1, s.c + iv2, s.d + iv3, s.e + iv4⟩

/-- `DIGEST(m)` (R10): 20 bytes, for a byte string of 1 to 1024 bytes. -/
def digest (m : List Byte) : List Byte :=
  let s := finalAccs (schedule m)
  be32 s.a ++ be32 s.b ++ be32 s.c ++ be32 s.d ++ be32 s.e

/-- The hexadecimal form of `DIGEST(m)`: 40 character codes (R203). -/
def hexDigest (m : List Byte) : List Byte := (digest m).flatMap hexOfByte

end Sys2Proof.Machine.Digest
end

