-- ==== Sys2Proof/Machine/Normalizer.lean ====
section
/-! DEFINITION. The input normalizer (spec/40_input_normalizer.md R100 to R106): host software, not part of the hardware
(spec/00_scope.md R4). It reads and writes no state of the core. `none` stands for `InvalidData`. The lowercasing function
is open (R103): an argument. -/

namespace Sys2Proof.Machine.Normalizer

/-- A text: a sequence of Unicode characters. -/
abbrev Text := List Char

/-- The byte as a number lies between two bounds, both included. -/
def within (b : Byte) (lo hi : Nat) : Bool := decide (lo ≤ b.toNat) && decide (b.toNat ≤ hi)

/-- The low six bits of a continuation byte. -/
def low6 (b : Byte) : Nat := b.toNat % 64

/-- A two-byte sequence is well formed. -/
def valid2 (b0 b1 : Byte) : Bool := within b0 0xC2 0xDF && within b1 0x80 0xBF

/-- A three-byte sequence is well formed: no overlong form, no surrogate. -/
def valid3 (b0 b1 b2 : Byte) : Bool :=
  within b0 0xE0 0xEF && within b1 (if b0 = 0xE0 then 0xA0 else 0x80) (if b0 = 0xED then 0x9F else 0xBF) && within b2 0x80 0xBF

/-- A four-byte sequence is well formed: no overlong form, nothing above U+10FFFF. -/
def valid4 (b0 b1 b2 b3 : Byte) : Bool :=
  within b0 0xF0 0xF4 && within b1 (if b0 = 0xF0 then 0x90 else 0x80) (if b0 = 0xF4 then 0x8F else 0xBF) &&
    within b2 0x80 0xBF && within b3 0x80 0xBF

/-- The character of a one- to four-byte sequence, and how many further bytes it takes. -/
def decodeFirst : List Byte → Option (Char × Nat)
  | [] => none
  | b0 :: rest =>
    if b0.toNat < 0x80 then some (Char.ofNat b0.toNat, 0)
    else match rest with
      | b1 :: rest1 =>
        if valid2 b0 b1 then some (Char.ofNat (b0.toNat % 32 * 64 + low6 b1), 1)
        else match rest1 with
          | b2 :: rest2 =>
            if valid3 b0 b1 b2 then some (Char.ofNat ((b0.toNat % 16 * 64 + low6 b1) * 64 + low6 b2), 2)
            else match rest2 with
              | b3 :: _ =>
                if valid4 b0 b1 b2 b3 then
                  some (Char.ofNat (((b0.toNat % 8 * 64 + low6 b1) * 64 + low6 b2) * 64 + low6 b3), 3)
                else none
              | [] => none
          | [] => none
      | [] => none

/-- Decoding from here on, when the first `skip` bytes belong to the character before. -/
def decodeSkipping : Nat → List Byte → Option Text
  | _, [] => some []
  | skip + 1, _ :: rest => decodeSkipping skip rest
  | 0, b :: rest =>
    match decodeFirst (b :: rest) with
    | none => none
    | some (c, more) => (decodeSkipping more rest).map (c :: ·)

/-- `DECODE_UTF8` (R101): the text, or `InvalidData`. The well-formed sequences are those of the Unicode Standard (G3). -/
def decodeUtf8 (m : List Byte) : Option Text := decodeSkipping 0 m

/-- A continuation byte. -/
def contByte (n : Nat) : Byte := BitVec.ofNat 8 (0x80 + n % 64)

/-- The UTF-8 encoding of one character. -/
def encodeChar (c : Char) : List Byte :=
  let n := c.toNat
  if n < 0x80 then [BitVec.ofNat 8 n]
  else if n < 0x800 then [BitVec.ofNat 8 (0xC0 + n / 64), contByte n]
  else if n < 0x10000 then [BitVec.ofNat 8 (0xE0 + n / 4096), contByte (n / 64), contByte n]
  else [BitVec.ofNat 8 (0xF0 + n / 262144), contByte (n / 4096), contByte (n / 64), contByte n]

/-- `UTF8_ENCODE` (R105). -/
def encodeUtf8 (s : Text) : List Byte := s.flatMap encodeChar

/-- The lowercase of a character below 0x80: `A` to `Z` go 32 code points up, every other one stays (R103, G4). -/
def asciiLower (c : Char) : Char := if 0x41 ≤ c.toNat ∧ c.toNat ≤ 0x5A then Char.ofNat (c.toNat + 32) else c

/-- The uppercase of a character below 0x80: `a` to `z` go 32 code points down, every other one stays (R106, G4). -/
def asciiUpper (c : Char) : Char := if 0x61 ≤ c.toNat ∧ c.toNat ≤ 0x7A then Char.ofNat (c.toNat - 32) else c

/-- In every text, whatever stands around it, each character below 0x80 becomes its image under `f`; what each other
character becomes, and how long that is, is open (R103 items 3 and 4). -/
def ActsOnAscii (f : Char → Char) (g : Text → Text) : Prop :=
  ∀ s, ∃ pieces : List Text, g s = pieces.flatten ∧ List.Forall₂ (fun c piece => c.toNat < 0x80 → piece = [f c]) s pieces

/-- What R103 asks of the open function `LOWER`: items 2 and 3; item 1 is its type. -/
structure LowerOk (lower : Text → Text) : Prop where
  idempotent : ∀ s, lower (lower s) = lower s
  onAscii : ActsOnAscii asciiLower lower

/-- The case-folding of a text does not change its byte length (R106). -/
def KeepsByteLength (lower : Text → Text) (s : Text) : Prop :=
  (encodeUtf8 (lower s)).length = (encodeUtf8 s).length

/-- What the case invariance of R106 asks of the host's uppercasing function beside `LOWER`: its action on characters below
0x80, and that `LOWER` undoes it on the texts whose case-folding keeps the byte length. -/
structure UpperOk (lower upper : Text → Text) : Prop where
  onAscii : ActsOnAscii asciiUpper upper
  undone : ∀ s, KeepsByteLength lower s → lower (upper s) = lower s

/-- `CHECK_LEN` (R104): the length is 1 to 1024. -/
def checkLen (n : List Byte) : Bool := decide (1 ≤ n.length) && decide (n.length ≤ Config.bufBytes)

/-- `NORMALIZE_TEXT` (R105). -/
def normalizeText (lower : Text → Text) (s : Text) : Option (List Byte) :=
  if checkLen (encodeUtf8 (lower s)) then some (encodeUtf8 (lower s)) else none

/-- `NORMALIZE_BYTES` (R105). -/
def normalizeBytes (lower : Text → Text) (m : List Byte) : Option (List Byte) :=
  match decodeUtf8 m with
  | none => none
  | some s => normalizeText lower s

/-- `hash(S) = DIGEST(NORMALIZE(S))` of R106 for bytes, or `InvalidData`: what `HASHB` (Machine/Driver.lean) is to return. -/
def hashBytes (lower : Text → Text) (m : List Byte) : Option (List Byte) := (normalizeBytes lower m).map Digest.digest

/-- The same for a text, in hexadecimal characters: what `HASHS` (Machine/Driver.lean) is to return. -/
def hashString (lower : Text → Text) (s : Text) : Option (List Byte) := (normalizeText lower s).map Digest.hexDigest

end Sys2Proof.Machine.Normalizer
end

