-- ==== Sys2Proof/Machine/Driver.lean ====
section
/-! DEFINITION. The host's pseudo-instructions (spec/30_encoding.md R90 to R93, spec/70_reset_and_hazards.md R252, R253): host
routines, no frames of their own. A routine sends frames to the core one after the other, reads each response and decides
by it what to send next. How many steps the sequencer takes before each `STAT` of a `WAIT` is open (R258): an argument. -/

namespace Sys2Proof.Machine.Driver

/-! ## Turns and responses -/

/-- The turn in which the host sends a command. -/
def send (i : Instr) : Turn := .command (commandFrame i)

/-- `LOAD n` (R92) as commands: `PUSHB n[0]`, `PUSHB n[1]`, … -/
def loadCommands (n : List Byte) : List Instr := n.map .pushb

/-- `LOAD n` as turns. -/
def load (n : List Byte) : List Turn := (loadCommands n).map send

/-- The status field `R[39:32]` of a response (R72). -/
def replyStatus (r : Reply) : BitVec 8 := r.extractLsb' 32 8

/-- The data field `R[31:0]` of a response (R72). -/
def replyData (r : Reply) : Word := r.extractLsb' 0 32

/-- The response is `INVALID_DATA` (R73). -/
def isInvalidData (r : Reply) : Bool := decide (replyStatus r = Status.invalidData.code)

/-- Bit 1 of a status word, `DONE` (R30). -/
def doneBit (w : Word) : Bool := w.getLsbD 1

/-- Bit 2 of a status word, `ERR` (R30). -/
def errBit (w : Word) : Bool := w.getLsbD 2

/-! ## Routines -/

/-- What a host routine ends in. -/
inductive Answer (α : Type) where
  /-- The routine returns a value. -/
  | value (v : α)
  /-- The routine returns `InvalidData`. -/
  | invalidData
  /-- A `WAIT` has not ended after the last `STAT` that the schedule gives it: nothing is returned yet. -/
  | waiting
  /-- The model of the core has stopped. -/
  | stopped
  deriving DecidableEq, Repr

/-- A host routine: from the machine's state to what it ends in and the state it leaves. -/
abbrev Routine (α : Type) := State → Answer α × State

/-- The routine that returns a value and sends nothing. -/
def give {α : Type} (v : α) : Routine α := fun s => (.value v, s)

/-- `return InvalidData`. -/
def returnInvalidData {α : Type} : Routine α := fun s => (.invalidData, s)

/-- One routine, then, if it returns a value, the next. -/
def andThen {α β : Type} (p : Routine α) (f : α → Routine β) : Routine β := fun s =>
  match p s with
  | (.value v, t) => f v t
  | (.invalidData, t) => (.invalidData, t)
  | (.waiting, t) => (.waiting, t)
  | (.stopped, t) => (.stopped, t)

/-- The machine takes this turn before any that waits. -/
def takeNow (turn : Turn) : Routine Unit := fun s =>
  match step { s with turns := turn :: s.turns } with
  | .next t => (.value (), t)
  | .fault _ => (.stopped, s)
  | .refused _ => (.stopped, s)

/-- The newest response. -/
def newestReply : Routine Reply := fun s =>
  match s.responses with
  | r :: _ => (.value r, s)
  | [] => (.stopped, s)

/-- One command, and its response (R72). -/
def issue (i : Instr) : Routine Reply := andThen (takeNow (send i)) fun _ => newestReply

/-- Several commands in order, and their responses in order. -/
def issueAll : List Instr → Routine (List Reply)
  | [] => give []
  | i :: rest => andThen (issue i) fun r => andThen (issueAll rest) fun rs => give (r :: rs)

/-- The sequencer takes this many turns while the host sends nothing. -/
def sequencerTurns : Nat → Routine Unit
  | 0 => give ()
  | g + 1 => andThen (takeNow .sequencer) fun _ => sequencerTurns g

/-- `WAIT` (R93): `STAT` again and again until the response has bit 1 (`DONE`) or bit 2 (`ERR`) set; it returns that status
word. Before each `STAT` the sequencer takes the next number of turns of the schedule. -/
def wait : List Nat → Routine Word
  | [] => fun s => (.waiting, s)
  | g :: gaps => andThen (sequencerTurns g) fun _ => andThen (issue .stat) fun r =>
      if doneBit (replyData r) || errBit (replyData r) then give (replyData r) else wait gaps

/-! ## HASHB and HASHS -/

/-- The commands of `HASHB` and `HASHS` on the bytes `n`, with these output reads (R90, R91, R252 steps 2 to 6): `InvalidData`
when a response of `CLR`, `LOAD` or `START` is `INVALID_DATA` (R253) or `WAIT` ends with `ERR`; else `DATA[7:0]` of each read. -/
def hashCommands (reads : List Instr) (gaps : List Nat) (n : List Byte) : Routine (List Byte) :=
  andThen (issueAll (.clr :: loadCommands n)) fun loaded =>
    if loaded.any isInvalidData then returnInvalidData
    else andThen (issue .start) fun started =>
      if isInvalidData started then returnInvalidData
      else andThen (wait gaps) fun status =>
        if errBit status then returnInvalidData
        else andThen (issueAll reads) fun rs => give (rs.map fun r => (replyData r).extractLsb' 0 8)

/-- The commands of a routine on normalised bytes; with none (`InvalidData`) the core is not used (R90, R105). -/
def onNormalized (normalized : Option (List Byte)) (commands : List Byte → Routine (List Byte)) : Routine (List Byte) :=
  match normalized with
  | none => returnInvalidData
  | some n => commands n

/-- `RDB 0` to `RDB 19`. -/
def byteReads : List Instr := (List.range Config.digestBytes).map .rdb

/-- `RDH 0` to `RDH 39`. -/
def hexReads : List Instr := (List.range Config.hexChars).map .rdh

/-- `HASHB m` (R90): `hash_bytes` on the core. -/
def hashB (lower : Normalizer.Text → Normalizer.Text) (gaps : List Nat) (m : List Byte) : Routine (List Byte) :=
  onNormalized (Normalizer.normalizeBytes lower m) (hashCommands byteReads gaps)

/-- `HASHS s` (R91): `hash_string` on the core. -/
def hashS (lower : Normalizer.Text → Normalizer.Text) (gaps : List Nat) (text : Normalizer.Text) : Routine (List Byte) :=
  onNormalized (Normalizer.normalizeText lower text) (hashCommands hexReads gaps)

end Sys2Proof.Machine.Driver
end

