-- ==== Sys2Proof/Safety.lean ====
section
/-! DEFINITION. What holds in every reachable state (spec/10_state.md R35), what the host can see (R33), and what ends a
computation: the terms the statements use. -/

namespace Sys2Proof.Machine

/-- The schedule words below `n` are expanded: `W[j+16]` is the expansion of its sources for every `j < n` (R35 item 6, R161). -/
def Memory.expandedBelow (m : Memory) (n : Nat) : Prop := ∀ j, j < n → m.word (j + 16) = m.expansion j

/-- The expansion is over: `PH` is `INIT`, `ROUND`, `FINAL` or `DONE`. -/
def CoreState.afterExpansion (c : CoreState) : Prop := c.ph = .init ∨ c.ph = .round ∨ c.ph = .final ∨ c.ph = .done

/-- The invariants of R35 on the registers, with the canonical form of the buffer. -/
structure CoreState.Inv (c : CoreState) : Prop where
  /-- Item 1: `(PH, CNT)` is a row of R27. -/
  pair : c.pairLegal = true
  /-- Item 2. -/
  lenBound : c.len.toNat ≤ Config.bufBytes
  /-- The buffer is in its canonical form. -/
  bufWf : c.buf.wf = true
  /-- Item 3: in `IDLE` the buffer is zero from `LEN` on. -/
  idleTail : c.ph = .idle → ∀ k, c.len.toNat ≤ k → c.buf.byte k = 0
  /-- Item 4: a message is loaded while busy and in `DONE`. -/
  loaded : c.busy = true ∨ c.done = true → 1 ≤ c.len.toNat
  /-- Item 5. -/
  cause : c.ecause ≠ .none ↔ c.ph = .error
  /-- Item 6, second half: in `EXPAND` with `CNT = i` the words 16 to 15 + i are expanded. -/
  expanding : c.ph = .expand → c.buf.expandedBelow c.cnt.toNat
  /-- After the expansion all 64 words are (item 7 follows). -/
  expanded : c.afterExpansion → c.buf.expandedBelow Config.nExp

/-- A response the hardware can give (R72, R73): a status 0 to 3, and no data unless the status is `OK`. -/
def replyOk (r : Reply) : Prop :=
  (Driver.replyStatus r).toNat ≤ 3 ∧ (Driver.replyStatus r ≠ Status.ok.code → Driver.replyData r = 0)

/-- The invariant of the machine: the core's, and that every response given was one the hardware can give. -/
def State.Inv (s : State) : Prop := s.core.Inv ∧ ∀ r ∈ s.responses, replyOk r

/-- Two cores that the host cannot tell apart by one command (R33): the same flags, cause and length, and in `DONE` the same
accumulators. -/
def CoreState.sameView (c d : CoreState) : Prop :=
  c.busy = d.busy ∧ c.done = d.done ∧ c.err = d.err ∧ c.ecause = d.ecause ∧ c.len = d.len ∧
    (c.done = true → c.digestWords = d.digestWords)

/-- The turn returns the core to the clear state: reset, or a `CLR` (R226, R257). -/
def Turn.clears : Turn → Bool
  | .reset => true
  | .command c => decide (decodeFrame c = .instr .clr)
  | .sequencer => false

end Sys2Proof.Machine
end

