-- ==== Sys2Proof/Certificates/Slice0/Obligations.lean ====
section
/-! DEFINITION. The statements about the model that are to be proved. Each docstring names the rules of spec/ the statement
formalises. A frame is said by an equation of the whole next state: what stands on neither side of it is unchanged. -/

open Sys2Proof Sys2Proof.Machine

namespace Sys2Proof.Machine

/-- What the phase gate of R77 makes of the command `i`, which needs the phase `need`: in `ERROR` it answers `INVALID_DATA`,
in any other phase but `need` it answers `REFUSED`, and neither changes anything else. -/
def GatedBy (i : Instr) (need : Phase) : Prop :=
  ∀ s : State, s.core.pairLegal = true →
    (s.core.ph = .error → exec i s = .next { s with responses := 0x0100000000 :: s.responses }) ∧
    (s.core.ph ≠ .error → s.core.ph ≠ need → exec i s = .next { s with responses := 0x0200000000 :: s.responses })

/-- The sequencer moves next: its turn stands first, or no turn is waiting. -/
def State.sequencerNext (s : State) : Prop := s.turns = [] ∨ ∃ rest, s.turns = .sequencer :: rest

/-- `(PH, CNT)` is this pair. -/
abbrev CoreState.at (c : CoreState) (ph : Phase) (cnt : Nat) : Prop := c.ph = ph ∧ c.cnt.toNat = cnt

/-- What a round of R183 does: the registers after it, from those before, with mixing function `f` and constant `k`; nothing
else changes, and `(PH, CNT)` advances. -/
def RoundResult (f : Word → Word → Word → Word) (k : Word) (t : Nat) (s u : State) : Prop :=
  u.core.a = s.core.buf.word t + rol32 s.core.a 5 + s.core.e + f s.core.b s.core.c s.core.d + k ∧
  u.core.b = s.core.a ∧ u.core.c = rol32 s.core.b 30 ∧ u.core.d = s.core.c ∧ u.core.e = s.core.d ∧
  (t = 79 → u.core.at .final 0) ∧ (t ≠ 79 → u.core.at s.core.ph (t + 1)) ∧
  u = { s with core := { s.core with
    a := u.core.a, b := u.core.b, c := u.core.c, d := u.core.d, e := u.core.e, ph := u.core.ph, cnt := u.core.cnt } }

/-- What a host routine that sends the commands of R252 steps 2 to 6 on the bytes `n` does from every state. With a schedule
that adds up to a whole run it returns `v`, the core is left in `DONE`, and the machine has run on exactly these frames in this
order, with sequencer turns between them: `CLR`, `LOAD n`, `START`, one or more `STAT`, the reads. With a shorter schedule it
is still in `WAIT`. -/
def ReturnsAfterOneRun (routine : Driver.Routine (List Byte)) (n : List Byte) (reads : List Instr) (gaps : List Nat)
    (v : List Byte) : Prop :=
  ∀ s : State,
    (146 ≤ gaps.sum → ∃ t ts k, routine s = (.value v, t) ∧
      ts.filter (fun x => decide (x ≠ .sequencer)) =
        (Instr.clr :: Driver.loadCommands n ++ Instr.start :: List.replicate (k + 1) Instr.stat ++ reads).map Driver.send ∧
      Host.Core.run core ts.length { s with turns := ts ++ s.turns } = .next t ∧ t.core.at .done 0 ∧ t.turns = s.turns) ∧
    (gaps.sum < 146 → (routine s).1 = .waiting)

end Sys2Proof.Machine

/-! ## Encoding -/

/-- Decoding the encoding of a well-formed operation gives it back, every operand at every admitted value (R74, R78). -/
def Obligations.DecodeOfEncodeIsTheInstruction : Prop :=
  ∀ i : Instr, i.wellFormed = true → decode (encode i) = .instr i

/-- What decodes is well formed and has that one word: no reserved word falls to a neighbour (R74, R76, R78, R79). -/
def Obligations.DecodedWordIsTheEncoding : Prop :=
  ∀ (w : CodeWord) (i : Instr), decode w = .instr i → i.wellFormed = true ∧ encode i = w

/-- R76: the illegal frames are those of the seven items, read off the 48 bits as a number; every other frame decodes to one
of the nine commands; an illegal frame changes no state in any phase and gets `respond(ILLEGAL, 0)`. -/
def Obligations.IllegalFramesAreTheSevenItems : Prop :=
  ∀ c : Frame,
    let op := c.toNat / 2 ^ 44
    let rsv := c.toNat / 2 ^ 40 % 16
    let idx := c.toNat / 2 ^ 32 % 256
    let data := c.toNat % 2 ^ 32
    let illegal := rsv ≠ 0 ∨ 9 ≤ op ∨
      ((op = 0 ∨ op = 1 ∨ op = 4 ∨ op = 5) ∧ (idx ≠ 0 ∨ data ≠ 0)) ∨
      (op = 2 ∧ (idx ≠ 0 ∨ data / 2 ^ 8 ≠ 0)) ∨
      (op = 3 ∧ idx ≠ 0) ∨
      ((op = 6 ∨ op = 7 ∨ op = 8) ∧ data ≠ 0) ∨
      (op = 6 ∧ 20 ≤ idx) ∨ (op = 7 ∧ 5 ≤ idx) ∨ (op = 8 ∧ 40 ≤ idx)
    (¬ illegal → ∃ i, decodeFrame c = .instr i ∧ i.isCommand = true) ∧
    (illegal → (∃ why, decodeFrame c = .rejected why) ∧
      ∀ (s : State) (rest : List Turn), s.turns = .command c :: rest →
        step s = .next { s with turns := rest, responses := 0x0300000000 :: s.responses })

/-- R74: the frame pattern of each of the nine commands, as a number. -/
def Obligations.FramePatternsOfTheCommands : Prop :=
  (commandFrame .nop).toNat = 0x000000000000 ∧ (commandFrame .clr).toNat = 0x100000000000 ∧
  (∀ b : Byte, (commandFrame (.pushb b)).toNat = 0x200000000000 + b.toNat) ∧
  (∀ w : Word, (commandFrame (.pushw w)).toNat = 0x300000000000 + w.toNat) ∧
  (commandFrame .start).toNat = 0x400000000000 ∧ (commandFrame .stat).toNat = 0x500000000000 ∧
  (∀ k, k < 20 → (commandFrame (.rdb k)).toNat = 0x600000000000 + k * 2 ^ 32) ∧
  (∀ k, k < 5 → (commandFrame (.rdw k)).toNat = 0x700000000000 + k * 2 ^ 32) ∧
  (∀ k, k < 40 → (commandFrame (.rdh k)).toNat = 0x800000000000 + k * 2 ^ 32)

/-- R78: which micro-operation each sequencer word selects; the words of R79 select none. -/
def Obligations.SequencerWordSelectsTheMicroOperation : Prop :=
  ∀ q : SeqWord, decodeSeq q =
    if 0x080 ≤ q.toNat ∧ q.toNat ≤ 0x0BF then .instr (.xstep (q.toNat - 0x080))
    else if q.toNat = 0x100 then .instr .hinit
    else if 0x180 ≤ q.toNat ∧ q.toNat ≤ 0x193 then .instr (.rstep1 (q.toNat - 0x180))
    else if 0x194 ≤ q.toNat ∧ q.toNat ≤ 0x1A7 then .instr (.rstep2 (q.toNat - 0x180))
    else if 0x1A8 ≤ q.toNat ∧ q.toNat ≤ 0x1BB then .instr (.rstep3 (q.toNat - 0x180))
    else if 0x1BC ≤ q.toNat ∧ q.toNat ≤ 0x1CF then .instr (.rstep4 (q.toNat - 0x180))
    else if q.toNat = 0x200 then .instr .fin
    else if q.toNat = 0x000 ∨ q.toNat = 0x280 ∨ q.toNat = 0x300 then .rejected .noMicroOp
    else .rejected .unreachedSequencerWord

/-- A few words written out from R74 and R78 decode to the operations they stand for. -/
def Obligations.WordsOfTheTablesDecode : Prop :=
  decodeFrame 0x2000000000ff = .instr (.pushb 0xff) ∧ decodeFrame 0x300034333231 = .instr (.pushw 0x34333231) ∧
  decodeFrame 0x400000000000 = .instr .start ∧ decodeFrame 0x802700000000 = .instr (.rdh 39) ∧
  decodeFrame 0x010000000000 = .rejected .reservedField ∧ decodeFrame 0x601400000000 = .rejected .indexRange ∧
  decodeSeq 0x0BF = .instr (.xstep 63) ∧ decodeSeq 0x1BC = .instr (.rstep4 60) ∧ decodeSeq 0x200 = .instr .fin

/-! ## One step -/

/-- A turn of the host with a legal frame is the decoded command, done on the state with that turn taken off the list
(R60, R70). -/
def Obligations.StepRunsTheDecodedCommand : Prop :=
  ∀ (s : State) (c : Frame) (rest : List Turn) (i : Instr),
    s.turns = .command c :: rest → decodeFrame c = .instr i → step s = exec i { s with turns := rest }

/-- A turn of the sequencer is the micro-operation that `(PH, CNT)` selects (R78, R144). -/
def Obligations.StepRunsTheSelectedMicroOperation : Prop :=
  ∀ (s : State) (i : Instr), s.sequencerNext → decodeSeq s.core.seqWord = .instr i →
    step s = exec i { s with turns := s.turns.tail }

/-- R144: the sequencer's step in every row of its table, and none in `IDLE`, `DONE` and `ERROR`, where the state changes
only by a host command. The round phase is `t div 20 + 1`. -/
def Obligations.SequencerStepFollowsItsTable : Prop :=
  ∀ s : State, s.sequencerNext →
    let s' : State := { s with turns := s.turns.tail }
    (∀ i, i < 63 → s.core.at .expand i →
      ∃ t, step s = exec (.xstep i) s' ∧ step s = .next t ∧ t.core.at .expand (i + 1)) ∧
    (s.core.at .expand 63 → ∃ t, step s = exec (.xstep 63) s' ∧ step s = .next t ∧ t.core.at .init 0) ∧
    (s.core.at .init 0 → ∃ t, step s = exec .hinit s' ∧ step s = .next t ∧ t.core.at .round 0) ∧
    (∀ i, i < 79 → s.core.at .round i →
      ∃ t, step s = .next t ∧ t.core.at .round (i + 1) ∧
        (i / 20 + 1 = 1 → step s = exec (.rstep1 i) s') ∧ (i / 20 + 1 = 2 → step s = exec (.rstep2 i) s') ∧
        (i / 20 + 1 = 3 → step s = exec (.rstep3 i) s') ∧ (i / 20 + 1 = 4 → step s = exec (.rstep4 i) s')) ∧
    (s.core.at .round 79 → ∃ t, step s = exec (.rstep4 79) s' ∧ step s = .next t ∧ t.core.at .final 0) ∧
    (s.core.at .final 0 → ∃ t, step s = exec .fin s' ∧ step s = .next t ∧ t.core.at .done 0) ∧
    (s.core.at .idle 0 ∨ s.core.at .done 0 ∨ s.core.at .error 0 → step s = .next s')

/-- R79 as the model takes it (log 4): where `(PH, CNT)` is no row of R27 the sequencer is stuck, and every well-formed
command but `CLR`, `NOP` and `STAT` is refused with no other effect. -/
def Obligations.UnreachedSequencerWordIsStuck : Prop :=
  ∀ s : State, s.core.pairLegal = false →
    (s.sequencerNext → step s = .fault .stuckSequencer) ∧
    ∀ i : Instr, i.wellFormed = true → i.isCommand = true → i ≠ .clr → i ≠ .nop → i ≠ .stat →
      exec i s = .next { s with responses := 0x0200000000 :: s.responses }

/-- Reset (R250, R34): every register takes its reset value, whatever the state was, and no response is given; then the core is
ready for a load by `PUSHB` or `PUSHW`, and a `CLR` changes nothing. -/
def Obligations.ResetGivesTheResetValues : Prop :=
  ∀ (s : State) (rest : List Turn), s.turns = .reset :: rest →
    ∃ t, step s = .next t ∧ (∀ k, t.core.buf.byte k = 0x00) ∧ t.core.len = 0 ∧ t.core.a = 0 ∧ t.core.b = 0 ∧ t.core.c = 0 ∧
      t.core.d = 0 ∧ t.core.e = 0 ∧ t.core.ph = .idle ∧ t.core.cnt = 0 ∧ t.core.ecause = .none ∧
      t.core = State.reset.core ∧ t.core.statusWord = 0 ∧ t.turns = rest ∧ t.responses = s.responses ∧
      (∀ b, ∃ u, exec (.pushb b) t = .next u ∧ u.core.at .idle 0 ∧ u.core.len = 1 ∧ u.responses = 0x0000000000 :: s.responses) ∧
      (∀ w, ∃ u, exec (.pushw w) t = .next u ∧ u.core.at .idle 0 ∧ u.core.len = 4 ∧ u.responses = 0x0000000000 :: s.responses) ∧
      ∃ u, exec .clr t = .next u ∧ u.core = t.core

/-! ## The commands -/

/-- R141: `NOP` answers `OK 0` in every phase and changes nothing. -/
def Obligations.NopAnswersOkAndChangesNothing : Prop :=
  (commandFrame .nop).toNat = 0 ∧
  ∀ s : State, exec .nop s = .next { s with responses := 0x0000000000 :: s.responses }

/-- R121: `CLR` sets everything to the clear state in every phase and answers `OK 0`; R251: it is the reset state. -/
def Obligations.ClrClearsEverythingInEveryPhase : Prop :=
  (commandFrame .clr).toNat = 0x100000000000 ∧
  ∀ s : State, ∃ t, exec .clr s = .next t ∧ (∀ k, t.core.buf.byte k = 0x00) ∧ t.core.len = 0 ∧ t.core.a = 0 ∧
    t.core.b = 0 ∧ t.core.c = 0 ∧ t.core.d = 0 ∧ t.core.e = 0 ∧ t.core.ph = .idle ∧ t.core.cnt = 0 ∧
    t.core.ecause = .none ∧ t.core.busy = false ∧ t.core.done = false ∧ t.core.err = false ∧
    t.core = State.reset.core ∧ t.turns = s.turns ∧ t.responses = 0x0000000000 :: s.responses

/-- R122: `PUSHB b` in `IDLE` appends one byte at `LEN`, or raises `InvalidData(OVERFLOW)` when the buffer is full, changing
neither buffer nor `LEN`; in another phase it is gated. -/
def Obligations.PushbAppendsOneByteOrOverflows : Prop :=
  ∀ b : Byte, (commandFrame (.pushb b)).toNat = 0x200000000000 + b.toNat ∧ GatedBy (.pushb b) .idle ∧
    ∀ s : State, s.core.at .idle 0 → s.core.buf.wf = true →
      (s.core.len.toNat ≤ 1023 → ∃ t, exec (.pushb b) s = .next t ∧
        (∀ x, t.core.buf.byte x = if x = s.core.len.toNat then b else s.core.buf.byte x) ∧
        t.core.len.toNat = s.core.len.toNat + 1 ∧
        t = { s with
          core := { s.core with buf := t.core.buf, len := t.core.len }
          responses := 0x0000000000 :: s.responses }) ∧
      (1023 < s.core.len.toNat → exec (.pushb b) s = .next { s with
        core := { s.core with ph := .error, cnt := 0, ecause := .overflow }
        responses := 0x0100000000 :: s.responses })

/-- R123: `PUSHW w` in `IDLE` appends the four bytes of `w` at `LEN`, least significant first, or, with fewer than four bytes
free, writes none and raises `InvalidData(OVERFLOW)`; in another phase it is gated. -/
def Obligations.PushwAppendsFourBytesOrOverflows : Prop :=
  ∀ w : Word, (commandFrame (.pushw w)).toNat = 0x300000000000 + w.toNat ∧ GatedBy (.pushw w) .idle ∧
    ∀ s : State, s.core.at .idle 0 → s.core.buf.wf = true →
      (s.core.len.toNat ≤ 1020 → ∃ t, exec (.pushw w) s = .next t ∧
        (∀ j, j < 4 → (t.core.buf.byte (s.core.len.toNat + j)).toNat = w.toNat / 2 ^ (8 * j) % 256) ∧
        (∀ x, x < s.core.len.toNat ∨ s.core.len.toNat + 4 ≤ x → t.core.buf.byte x = s.core.buf.byte x) ∧
        t.core.len.toNat = s.core.len.toNat + 4 ∧
        t = { s with
          core := { s.core with buf := t.core.buf, len := t.core.len }
          responses := 0x0000000000 :: s.responses }) ∧
      (1020 < s.core.len.toNat → exec (.pushw w) s = .next { s with
        core := { s.core with ph := .error, cnt := 0, ecause := .overflow }
        responses := 0x0100000000 :: s.responses })

/-- R54: when all four bytes fit, `PUSHW v` has on the core exactly the effect of `PUSHB` of its four bytes in order, and at a
`LEN` that is a multiple of 4 its operand becomes the word `W[LEN div 4]` unchanged. -/
def Obligations.PushwEqualsFourPushb : Prop :=
  ∀ (v : Word) (s : State), s.core.at .idle 0 → s.core.buf.wf = true → s.core.len.toNat ≤ 1020 →
    ∃ t t1 t2 t3 t4, exec (.pushw v) s = .next t ∧
      exec (.pushb (v.extractLsb' 0 8)) s = .next t1 ∧ exec (.pushb (v.extractLsb' 8 8)) t1 = .next t2 ∧
      exec (.pushb (v.extractLsb' 16 8)) t2 = .next t3 ∧ exec (.pushb (v.extractLsb' 24 8)) t3 = .next t4 ∧
      t.core = t4.core ∧ (4 ∣ s.core.len.toNat → t.core.buf.word (s.core.len.toNat / 4) = v)

/-- R142: `START` in `IDLE` starts the run when a byte was loaded, and raises `InvalidData(EMPTY)` when none was; it touches
neither buffer nor accumulators; in another phase it is gated. -/
def Obligations.StartBeginsTheRunOrRaisesEmpty : Prop :=
  (commandFrame .start).toNat = 0x400000000000 ∧ GatedBy .start .idle ∧
  ∀ s : State, s.core.at .idle 0 →
    (s.core.len ≠ 0 → exec .start s = .next { s with
      core := { s.core with ph := .expand, cnt := 0 }
      responses := 0x0000000000 :: s.responses }) ∧
    (s.core.len = 0 → exec .start s = .next { s with
      core := { s.core with ph := .error, cnt := 0, ecause := .empty }
      responses := 0x0100000000 :: s.responses })

/-- R143 with R29 and R30: `STAT` answers, in every phase, `OK` with `BUSY + 2*DONE + 4*ERR + 16*ECAUSE + 256*LEN`, where at
most one of the flags is set and the cause has the number of R28; it changes nothing. -/
def Obligations.StatReturnsTheStatusWord : Prop :=
  (commandFrame .stat).toNat = 0x500000000000 ∧
  ∀ s : State,
    let busy := if s.core.ph = .expand ∨ s.core.ph = .init ∨ s.core.ph = .round ∨ s.core.ph = .final then 1 else 0
    let done := if s.core.ph = .done then 1 else 0
    let err := if s.core.ph = .error then 1 else 0
    let cause := if s.core.ecause = .empty then 1 else if s.core.ecause = .overflow then 2
      else if s.core.ecause = .internal then 3 else 0
    ∃ r : Reply, exec .stat s = .next { s with responses := r :: s.responses } ∧
      r.toNat = busy + 2 * done + 4 * err + 16 * cause + 256 * s.core.len.toNat

/-- R204 with R202: in `DONE`, `RDB k` answers `OK` with the digest byte `H[k div 4][31 - 8*(k mod 4) : 24 - 8*(k mod 4)]`;
in another phase it is gated; it never changes the core. -/
def Obligations.RdbReadsTheDigestByte : Prop :=
  ∀ k, k < 20 → (commandFrame (.rdb k)).toNat = 0x600000000000 + k * 2 ^ 32 ∧ GatedBy (.rdb k) .done ∧
    ∀ s : State, s.core.at .done 0 → ∃ r : Reply, exec (.rdb k) s = .next { s with responses := r :: s.responses } ∧
      r.toNat = ([s.core.a, s.core.b, s.core.c, s.core.d, s.core.e].getD (k / 4) 0).toNat / 2 ^ (24 - 8 * (k % 4)) % 256

/-- R205 with R201: in `DONE`, `RDW k` answers `OK` with the accumulator `H[k]`; in another phase it is gated; it never
changes the core. -/
def Obligations.RdwReadsTheDigestWord : Prop :=
  ∀ k, k < 5 → (commandFrame (.rdw k)).toNat = 0x700000000000 + k * 2 ^ 32 ∧ GatedBy (.rdw k) .done ∧
    ∀ s : State, s.core.at .done 0 → ∃ r : Reply, exec (.rdw k) s = .next { s with responses := r :: s.responses } ∧
      r.toNat = ([s.core.a, s.core.b, s.core.c, s.core.d, s.core.e].getD k 0).toNat

/-- R206 with R203: in `DONE`, `RDH k` answers `OK` with the character code of nibble `k` of the digest, most significant
first: `0x30 + n` up to 9, `0x57 + n` from 10 (the ASCII codes of G5, log 13); in another phase it is gated. -/
def Obligations.RdhReadsTheHexCharacter : Prop :=
  ∀ k, k < 40 → (commandFrame (.rdh k)).toNat = 0x800000000000 + k * 2 ^ 32 ∧ GatedBy (.rdh k) .done ∧
    ∀ s : State, s.core.at .done 0 → ∃ r : Reply, exec (.rdh k) s = .next { s with responses := r :: s.responses } ∧
      let n := ([s.core.a, s.core.b, s.core.c, s.core.d, s.core.e].getD (k / 8) 0).toNat / 2 ^ (28 - 4 * (k % 8)) % 16
      r.toNat = if n ≤ 9 then 0x30 + n else 0x57 + n

/-- R207: the digest is always 20 bytes and the hexadecimal form 40 lowercase characters; outside `DONE` every read command,
whatever its index, answers with a status other than `OK` and data 0 and leaves the core as it is. -/
def Obligations.OutputIsReadOnlyInDone : Prop :=
  (∀ c : CoreState, c.digestBytes.length = 20 ∧ c.hexDigest.length = 40 ∧
    ∀ x ∈ c.hexDigest, (0x30 ≤ x.toNat ∧ x.toNat ≤ 0x39) ∨ (0x61 ≤ x.toNat ∧ x.toNat ≤ 0x66)) ∧
  ∀ (s : State) (k : Nat) (i : Instr), i = .rdb k ∨ i = .rdw k ∨ i = .rdh k → s.core.ph ≠ .done →
    ∃ r : Reply, exec i s = .next { s with responses := r :: s.responses } ∧
      Driver.replyStatus r ≠ 0x00 ∧ Driver.replyData r = 0

/-- R77, the order of checks of one frame, after the first (R76): the commands allowed in every phase, then `ERROR`, then the
phase. -/
def Obligations.CommandsAreGatedByPhase : Prop :=
  (∀ s : State, ∃ t u v, exec .nop s = .next t ∧ exec .clr s = .next u ∧ exec .stat s = .next v ∧
    (∃ r rest, t.responses = r :: rest ∧ Driver.replyStatus r = 0x00) ∧
    (∃ r rest, u.responses = r :: rest ∧ Driver.replyStatus r = 0x00) ∧
    (∃ r rest, v.responses = r :: rest ∧ Driver.replyStatus r = 0x00)) ∧
  (∀ b, GatedBy (.pushb b) .idle) ∧ (∀ w, GatedBy (.pushw w) .idle) ∧ GatedBy .start .idle ∧
  (∀ k, k < 20 → GatedBy (.rdb k) .done) ∧ (∀ k, k < 5 → GatedBy (.rdw k) .done) ∧
  (∀ k, k < 40 → GatedBy (.rdh k) .done)

/-! ## The micro-operations -/

/-- R161: `XSTEP i` writes `W[i+16]` with `2^s`, where `s` is the low five bits of the XOR of its four source words, and
advances `(PH, CNT)`; every byte outside `BUF[4i+64..4i+67]` and every other register is unchanged. -/
def Obligations.XstepWritesTheExpandedWord : Prop :=
  ∀ i, i < 64 → (∃ q, encode (.xstep i) = .seq q ∧ q.toNat = 0x080 + i) ∧
    ∀ s : State, s.core.buf.wf = true → ∃ t, exec (.xstep i) s = .next t ∧
      let x := s.core.buf.word i ^^^ s.core.buf.word (i + 2) ^^^ s.core.buf.word (i + 8) ^^^ s.core.buf.word (i + 13)
      t.core.buf.word (i + 16) = rol32 1 (x.toNat % 32) ∧ (t.core.buf.word (i + 16)).toNat = 2 ^ (x.toNat % 32) ∧
      (∀ y, y < 4 * i + 64 ∨ 4 * i + 68 ≤ y → t.core.buf.byte y = s.core.buf.byte y) ∧
      (i = 63 → t.core.at .init 0) ∧ (i ≠ 63 → t.core.at s.core.ph (i + 1)) ∧
      t = { s with core := { s.core with buf := t.core.buf, ph := t.core.ph, cnt := t.core.cnt } }

/-- R180: `HINIT` sets the accumulators to the initial constants and goes to `(ROUND, 0)`; nothing else changes. -/
def Obligations.HinitLoadsTheInitialConstants : Prop :=
  encode .hinit = .seq 0x100 ∧
  ∀ s : State, exec .hinit s = .next { s with core := { s.core with
    a := 0x67452301, b := 0xEFCDAB89, c := 0x98BADCFE, d := 0x10325476, e := 0xC3D2E1F0, ph := .round, cnt := 0 } }

/-- R184 with R183: `RSTEP1 t` is the round with `F1` and `K1`. -/
def Obligations.Rstep1IsTheRoundWithChoose : Prop :=
  ∀ t, t < 20 → (∃ q, encode (.rstep1 t) = .seq q ∧ q.toNat = 0x180 + t) ∧
    ∀ s : State, ∃ u, exec (.rstep1 t) s = .next u ∧
      RoundResult (fun b c d => (b &&& c) ||| (~~~b &&& d)) 0x5A827999 t s u

/-- R185 with R183: `RSTEP2 t` is the round with `F2` and `K2`. -/
def Obligations.Rstep2IsTheRoundWithParity : Prop :=
  ∀ t, 20 ≤ t → t < 40 → (∃ q, encode (.rstep2 t) = .seq q ∧ q.toNat = 0x180 + t) ∧
    ∀ s : State, ∃ u, exec (.rstep2 t) s = .next u ∧ RoundResult (fun b c d => b ^^^ c ^^^ d) 0x6ED9EBA1 t s u

/-- R186 with R183: `RSTEP3 t` is the round with `F3` and `K3`. -/
def Obligations.Rstep3IsTheRoundWithMajority : Prop :=
  ∀ t, 40 ≤ t → t < 60 → (∃ q, encode (.rstep3 t) = .seq q ∧ q.toNat = 0x180 + t) ∧
    ∀ s : State, ∃ u, exec (.rstep3 t) s = .next u ∧
      RoundResult (fun b c d => (b &&& c) ||| (b &&& d) ||| (c &&& d)) 0x8F1BBCDC t s u

/-- R187 with R183: `RSTEP4 t` is the round with `F4 = F2` and `K4`. -/
def Obligations.Rstep4IsTheRoundWithParity : Prop :=
  ∀ t, 60 ≤ t → t < 80 → (∃ q, encode (.rstep4 t) = .seq q ∧ q.toNat = 0x180 + t) ∧
    ∀ s : State, ∃ u, exec (.rstep4 t) s = .next u ∧ RoundResult (fun b c d => b ^^^ c ^^^ d) 0xCA62C1D6 t s u

/-- R200: `FIN` adds the initial constants to the accumulators, each modulo `2^32` on its own, and sets `PH <- DONE`, so that
`BUSY` becomes 0 and `DONE` becomes 1; nothing else changes. -/
def Obligations.FinAddsTheInitialConstants : Prop :=
  encode .fin = .seq 0x200 ∧
  ∀ s : State, ∃ t, exec .fin s = .next t ∧
    t.core.a.toNat = (s.core.a.toNat + 0x67452301) % 2 ^ 32 ∧ t.core.b.toNat = (s.core.b.toNat + 0xEFCDAB89) % 2 ^ 32 ∧
    t.core.c.toNat = (s.core.c.toNat + 0x98BADCFE) % 2 ^ 32 ∧ t.core.d.toNat = (s.core.d.toNat + 0x10325476) % 2 ^ 32 ∧
    t.core.e.toNat = (s.core.e.toNat + 0xC3D2E1F0) % 2 ^ 32 ∧ t.core.busy = false ∧ t.core.done = true ∧
    t = { s with core := { s.core with
      a := t.core.a, b := t.core.b, c := t.core.c, d := t.core.d, e := t.core.e, ph := .done } }

/-- R58 with R224: a micro-operation with a word index above 255 makes no access and raises `InvalidData(INTERNAL)` without a
response; no micro-operation the sequencer selects has such an index. -/
def Obligations.InternalAccessErrorIsRaisedAndUnreachable : Prop :=
  (∀ (s : State) (n : Nat) (i : Instr),
    (i = .xstep n ∧ 255 < n + 16) ∨ ((i = .rstep1 n ∨ i = .rstep2 n ∨ i = .rstep3 n ∨ i = .rstep4 n) ∧ 255 < n) →
    exec i s = .next { s with core := { s.core with ph := .error, cnt := 0, ecause := .internal } }) ∧
  (∀ (q : SeqWord) (n : Nat), decodeSeq q = .instr (.xstep n) → n + 16 ≤ 79) ∧
  (∀ (q : SeqWord) (n : Nat) (i : Instr), i = .rstep1 n ∨ i = .rstep2 n ∨ i = .rstep3 n ∨ i = .rstep4 n →
    decodeSeq q = .instr i → n ≤ 79)

/-- R147: from a busy state a sequencer step goes on, never to `ERROR`, and gives no response (R224, R70). -/
def Obligations.BusyStepNeverRaisesAnError : Prop :=
  ∀ s : State, s.core.pairLegal = true → s.core.busy = true → s.sequencerNext →
    ∃ t, step s = .next t ∧ (t.core.busy = true ∨ t.core.done = true) ∧ t.core.ecause = s.core.ecause ∧
      t.responses = s.responses ∧ t.turns = s.turns.tail

/-- R261, R146: the run has exactly 146 micro-operations for every message: from `(EXPAND, 0)`, when only the sequencer moves,
`PH = DONE` is reached after 146 steps and not before. -/
def Obligations.RunHasExactly146MicroOperations : Prop :=
  ∀ s : State, s.core.at .expand 0 → s.turns = [] → ∀ n, n ≤ 146 →
    ∃ t, Host.Core.run core n s = .next t ∧ (t.core.ph = .done ↔ n = 146) ∧ (n < 146 → t.core.busy = true)

/-! ## Memory and operators -/

/-- R21: the word view is the four bytes, little-endian, and writing `W[i] <- v` sets exactly those four bytes. -/
def Obligations.WordViewIsLittleEndian : Prop :=
  ∀ (m : Memory) (i : Nat), i < 256 →
    (m.word i).toNat = (m.byte (4 * i)).toNat + 2 ^ 8 * (m.byte (4 * i + 1)).toNat + 2 ^ 16 * (m.byte (4 * i + 2)).toNat +
      2 ^ 24 * (m.byte (4 * i + 3)).toNat ∧
    ∀ v : Word, m.wf = true →
      (∀ j, j < 4 → ((m.writeWord i v).byte (4 * i + j)).toNat = v.toNat / 2 ^ (8 * j) % 256) ∧
      (∀ x, x < 4 * i ∨ 4 * i + 4 ≤ x → (m.writeWord i v).byte x = m.byte x) ∧ (m.writeWord i v).word i = v

/-- Two buffers in canonical form that read alike at every address are the same data (the model's memory form). -/
def Obligations.BuffersThatReadAlikeAreEqual : Prop :=
  ∀ m m' : Memory, m.wf = true → m'.wf = true → (∀ x, x < 1024 → m.byte x = m'.byte x) → m = m'

/-- R8: the word operators as the spec gives them: `+32` as addition modulo `2^32`, `AND`, `OR`, `XOR` bit by bit, `NOT` as the
complement to `0xFFFFFFFF`, `rol32` as arithmetic. -/
def Obligations.WordOperatorsAreTheSpecsArithmetic : Prop :=
  (∀ x y : Word, (x + y).toNat = (x.toNat + y.toNat) % 2 ^ 32) ∧
  (∀ (x y : Word) (i : Nat), i < 32 →
    (x &&& y).getLsbD i = (x.getLsbD i && y.getLsbD i) ∧ (x ||| y).getLsbD i = (x.getLsbD i || y.getLsbD i) ∧
    (x ^^^ y).getLsbD i = (x.getLsbD i != y.getLsbD i)) ∧
  (∀ x : Word, (~~~x).toNat = 0xFFFFFFFF - x.toNat) ∧ (∀ x : Word, rol32 x 0 = x) ∧
  ∀ (x : Word) (n : Nat), 1 ≤ n → n ≤ 31 → (rol32 x n).toNat = x.toNat * 2 ^ n % 2 ^ 32 + x.toNat / 2 ^ (32 - n)

/-- R181: the mixing functions bit by bit: choose, parity, majority. -/
def Obligations.MixingFunctionsBitByBit : Prop :=
  ∀ (b c d : Word) (i : Nat), i < 32 →
    (mixChoose b c d).getLsbD i = (if b.getLsbD i then c.getLsbD i else d.getLsbD i) ∧
    (mixParity b c d).getLsbD i = (b.getLsbD i != (c.getLsbD i != d.getLsbD i)) ∧
    (mixMajority b c d).getLsbD i = decide (2 ≤ (b.getLsbD i).toNat + (c.getLsbD i).toNat + (d.getLsbD i).toNat)

/-! ## Invariants -/

/-- The state after reset meets the invariant: the registers by R34, the model's form of R35; that no response has been given
yet is the model's choice (log 18). -/
def Obligations.ResetMeetsTheInvariant : Prop := State.reset.Inv

/-- R35: from every state that meets the invariant, a step, whatever the turn, gives a state that meets it. -/
def Obligations.EveryStepKeepsTheInvariant : Prop :=
  ∀ s t : State, s.Inv → step s = .next t → t.Inv

/-- From a state that meets the invariant no step faults or is refused (R60; the model's one fault is unreachable, log 4). -/
def Obligations.NoStepStopsUnderTheInvariant : Prop :=
  ∀ s : State, s.Inv → ∃ t, step s = .next t

/-- R35 item 7, R164: after the expansion every `W[j]` for `j` in 16 to 79 is a power of two. -/
def Obligations.ExpandedWordsArePowersOfTwo : Prop :=
  ∀ c : CoreState, c.Inv → c.afterExpansion → ∀ j, 16 ≤ j → j < 80 → ∃ n, n < 32 ∧ (c.buf.word j).toNat = 2 ^ n

/-! ## The machine as a whole -/

/-- R225, R226: in `ERROR` every step leaves the core as it is, except a `CLR` or a reset, which gives the clear state. -/
def Obligations.ErrorIsLeftOnlyByClrOrReset : Prop :=
  ∀ s : State, s.core.at .error 0 → ∃ t, step s = .next t ∧
    (s.nextTurn.clears = true → t.core = State.reset.core) ∧ (s.nextTurn.clears = false → t.core = s.core)

/-- R61, R77: outside `IDLE` no frame but `CLR` changes the core, legal or not. -/
def Obligations.CommandsOutsideIdleChangeNothing : Prop :=
  ∀ (s : State) (c : Frame) (rest : List Turn), s.turns = .command c :: rest → s.core.ph ≠ .idle →
    decodeFrame c ≠ .instr .clr → ∃ t, step s = .next t ∧ t.core = s.core ∧ t.turns = rest

/-- R72, R73: every frame gets exactly one response, in the same step; its status is 0 to 3, and its data is 0 unless the
status is `OK`. -/
def Obligations.EveryFrameGetsExactlyOneResponse : Prop :=
  ∀ (s : State) (c : Frame) (rest : List Turn), s.turns = .command c :: rest →
    ∃ t r, step s = .next t ∧ t.turns = rest ∧ t.responses = r :: s.responses ∧
      r.toNat / 2 ^ 32 ≤ 3 ∧ (r.toNat / 2 ^ 32 ≠ 0 → r.toNat % 2 ^ 32 = 0)

/-- R33: two cores in rows of R27 with the same flags, cause, length and, in `DONE`, the same accumulators answer every frame
with the same response, and look the same after it: the buffer, `CNT`, the busy phase and the running accumulators are
hidden from every sequence of frames. -/
def Obligations.HiddenStateDoesNotReachTheResponse : Prop :=
  ∀ (s s' : State) (c : Frame) (rest rest' : List Turn),
    s.turns = .command c :: rest → s'.turns = .command c :: rest' →
    s.core.pairLegal = true → s'.core.pairLegal = true → s.core.sameView s'.core →
    ∃ t t' r, step s = .next t ∧ step s' = .next t' ∧ t.responses = r :: s.responses ∧ t'.responses = r :: s'.responses ∧
      t.turns = rest ∧ t'.turns = rest' ∧
      t.core.pairLegal = true ∧ t'.core.pairLegal = true ∧ t.core.sameView t'.core

/-- R33: until a run has ended no message is seen. Two machines in `IDLE` with messages of the same length, whatever the bytes,
give the same responses to every list of turns, frames, resets and sequencer turns, with too few sequencer turns for a run. -/
def Obligations.MessageIsHiddenUntilDone : Prop :=
  ∀ (s s' : State) (ts : List Turn), s.core.at .idle 0 → s'.core.at .idle 0 → s.core.ecause = s'.core.ecause →
    s.core.len = s'.core.len → ts.count .sequencer < 146 →
    ∃ t t' answers, Host.Core.run core ts.length { s with turns := ts } = .next t ∧
      Host.Core.run core ts.length { s' with turns := ts } = .next t' ∧
      t.responses = answers ++ s.responses ∧ t'.responses = answers ++ s'.responses ∧
      answers.length = ts.countP (fun x => decide (x ≠ .sequencer ∧ x ≠ .reset)) ∧ t.core.sameView t'.core

/-- R258: once a run has begun, for any interleaving of sequencer turns with frames that are no `CLR`, the core reached is the
one that the sequencer turns alone reach. -/
def Obligations.InterleavingDoesNotMatter : Prop :=
  ∀ (s : State) (ts : List Turn), s.core.pairLegal = true → s.core.ph ≠ .idle → (∀ x ∈ ts, x.clears = false) →
    ∃ t u, Host.Core.run core ts.length { s with turns := ts } = .next t ∧
      Host.Core.run core (ts.count .sequencer) { s with turns := [] } = .next u ∧ t.core = u.core ∧ t.turns = []

/-- R259: a `START` in `IDLE` with a loaded message, followed by the 146 micro-operations with any frames but `CLR` between
them, ends in `DONE` with `LEN`, `BUF[0..63]` and `BUF[320..1023]` unchanged, the words 16 to 79 expanded, and `DIGEST` of
the buffer's bytes (R10) in the accumulators. -/
def Obligations.RunComputesTheDigest : Prop :=
  ∀ (s : State) (ts : List Turn), s.core.Inv → s.core.ph = .idle → 1 ≤ s.core.len.toNat →
    (∀ x ∈ ts, x.clears = false) → 146 ≤ ts.count .sequencer →
    ∃ t, Host.Core.run core (ts.length + 1) { s with turns := Driver.send .start :: ts } = .next t ∧
      t.core.at .done 0 ∧ t.core.len = s.core.len ∧ t.core.ecause = .none ∧
      (∀ x, x < 64 ∨ 320 ≤ x → t.core.buf.byte x = s.core.buf.byte x) ∧
      (∀ j, j < 64 → t.core.buf.word (j + 16) = t.core.buf.expansion j) ∧
      t.core.digestBytes = Digest.digest ((List.range 1024).map s.core.buf.byte)

/-- R11: `DIGEST` depends only on the first 64 bytes of the zero-filled buffer. -/
def Obligations.DigestDependsOnTheFirst64Bytes : Prop :=
  ∀ m m' : List Byte, 1 ≤ m.length → m.length ≤ 1024 → 1 ≤ m'.length → m'.length ≤ 1024 →
    (∀ x, x < 64 → m.getD x 0 = m'.getD x 0) → Digest.digest m = Digest.digest m'

/-- R124: `CLR` and `LOAD n` from any state leave `IDLE`, `LEN = |n|` and exactly the message in the buffer, every response
`OK`; with more than 1024 bytes the 1025th `PUSHB` gets `INVALID_DATA`, and the state is `ERROR`, `OVERFLOW`, `LEN = 1024`. -/
def Obligations.LoaderContract : Prop :=
  ∀ (s : State) (n : List Byte),
    ∃ t, Host.Core.run core (n.length + 1) { s with turns := Driver.send .clr :: Driver.load n } = .next t ∧ t.turns = [] ∧
      (n.length ≤ 1024 → t.core.at .idle 0 ∧ t.core.len.toNat = n.length ∧ (∀ k, t.core.buf.byte k = n.getD k 0) ∧
        t.responses = List.replicate (n.length + 1) 0x0000000000 ++ s.responses) ∧
      (1024 < n.length → t.core.at .error 0 ∧ t.core.ecause = .overflow ∧ t.core.len.toNat = 1024 ∧
        t.responses = List.replicate (n.length - 1024) 0x0100000000 ++ List.replicate 1025 0x0000000000 ++ s.responses)

/-- R93: `WAIT` sends `STAT` until a response has bit 1 (`DONE`) or bit 2 (`ERR`) set, and no `STAT` after that one; it returns
that response's data. While the schedule allows no such response it is still waiting, and every response so far has both bits
clear. From a busy state a schedule that adds up to a whole run ends it (R146). -/
def Obligations.WaitRepeatsStatUntilDoneOrErr : Prop :=
  ∀ (s : State) (gaps : List Nat), s.core.pairLegal = true →
    ∃ (t : State) (answers : List Reply), t.responses = answers ++ s.responses ∧ answers.length ≤ gaps.length ∧
      (∀ r ∈ answers.tail, r.toNat / 2 % 4 = 0) ∧
      ((∃ r, answers.head? = some r ∧ r.toNat / 2 % 4 ≠ 0 ∧ Driver.wait gaps s = (.value (r.setWidth 32), t) ∧
          (t.core.done = true ∨ t.core.err = true)) ∨
        (Driver.wait gaps s = (.waiting, t) ∧ answers.length = gaps.length ∧ ∀ r ∈ answers, r.toNat / 2 % 4 = 0)) ∧
      (s.core.busy = true → 146 ≤ gaps.sum → (Driver.wait gaps s).1 ≠ .waiting)

/-- R107, R104, R253: the core takes bytes as they are. On any 1 to 1024 bytes, normalised or not, the commands of `HASHB` and
`HASHS` give `DIGEST` and its hexadecimal form; on none or more they end in `InvalidData` with the core in `ERROR`. -/
def Obligations.CommandsHashAnyBytesOfAdmittedLength : Prop :=
  ∀ (gaps : List Nat) (n : List Byte),
    (1 ≤ n.length → n.length ≤ 1024 →
      ReturnsAfterOneRun (Driver.hashCommands Driver.byteReads gaps n) n Driver.byteReads gaps (Digest.digest n) ∧
      ReturnsAfterOneRun (Driver.hashCommands Driver.hexReads gaps n) n Driver.hexReads gaps (Digest.hexDigest n)) ∧
    (n.length = 0 ∨ 1024 < n.length → ∀ (s : State) (reads : List Instr),
      ∃ t, Driver.hashCommands reads gaps n s = (.invalidData, t) ∧ t.core.at .error 0)

/-- R90 with R10, R105, R252: `HASHB m`, from any state. When the normalizer fails it returns `InvalidData` and the core is not
used; else it sends its commands on the normalised bytes and, when the sequencer's turns add up to a whole run, returns
their `DIGEST`, that is `hash_bytes` of R106. -/
def Obligations.HashbReturnsTheDigest : Prop :=
  ∀ (lower : Normalizer.Text → Normalizer.Text) (gaps : List Nat) (m : List Byte),
    (Normalizer.normalizeBytes lower m = none → ∀ s, Driver.hashB lower gaps m s = (.invalidData, s)) ∧
    (∀ n, Normalizer.normalizeBytes lower m = some n →
      ReturnsAfterOneRun (Driver.hashB lower gaps m) n Driver.byteReads gaps (Digest.digest n)) ∧
    (146 ≤ gaps.sum → ∀ s,
      (Driver.hashB lower gaps m s).1 = (Normalizer.hashBytes lower m).elim .invalidData .value)

/-- R91 with R10, R105, R203, R252: the same for `HASHS` on a text and the 40 hexadecimal characters. -/
def Obligations.HashsReturnsTheHexDigest : Prop :=
  ∀ (lower : Normalizer.Text → Normalizer.Text) (gaps : List Nat) (text : Normalizer.Text),
    (Normalizer.normalizeText lower text = none → ∀ s, Driver.hashS lower gaps text s = (.invalidData, s)) ∧
    (∀ n, Normalizer.normalizeText lower text = some n →
      ReturnsAfterOneRun (Driver.hashS lower gaps text) n Driver.hexReads gaps (Digest.hexDigest n)) ∧
    (146 ≤ gaps.sum → ∀ s,
      (Driver.hashS lower gaps text s).1 = (Normalizer.hashString lower text).elim .invalidData .value)

/-! ## The host's normalizer -/

/-- R104, R105: a lowercased form of 1 to 1024 bytes is passed on, as it is; one with none or more fails; nothing else is ever
passed on. -/
def Obligations.NormalizedLengthIsAdmitted : Prop :=
  ∀ (lower : Normalizer.Text → Normalizer.Text) (s : Normalizer.Text),
    (1 ≤ (Normalizer.encodeUtf8 (lower s)).length → (Normalizer.encodeUtf8 (lower s)).length ≤ 1024 →
      Normalizer.normalizeText lower s = some (Normalizer.encodeUtf8 (lower s))) ∧
    ((Normalizer.encodeUtf8 (lower s)).length = 0 ∨ 1024 < (Normalizer.encodeUtf8 (lower s)).length →
      Normalizer.normalizeText lower s = none) ∧
    ∀ n, Normalizer.normalizeText lower s = some n →
      n = Normalizer.encodeUtf8 (lower s) ∧ 1 ≤ n.length ∧ n.length ≤ 1024

/-- R101, R105: bytes decode to a text exactly when they are its UTF-8 encoding, so bytes that encode no text (an overlong form, a
lone continuation byte, a surrogate) are `InvalidData`, and `hash_bytes` of the bytes of a text and `hash_string` of the text
agree (the byte form is the model's reading of G3, log 11). -/
def Obligations.Utf8DecodingInvertsEncoding : Prop :=
  ∀ lower : Normalizer.Text → Normalizer.Text,
    (∀ s : Normalizer.Text, Normalizer.decodeUtf8 (Normalizer.encodeUtf8 s) = some s ∧
      Normalizer.normalizeBytes lower (Normalizer.encodeUtf8 s) = Normalizer.normalizeText lower s) ∧
    (∀ (m : List Byte) (s : Normalizer.Text), Normalizer.decodeUtf8 m = some s → Normalizer.encodeUtf8 s = m) ∧
    ∀ m : List Byte, (∀ s, Normalizer.encodeUtf8 s ≠ m) →
      Normalizer.decodeUtf8 m = none ∧ Normalizer.normalizeBytes lower m = none

/-- R106 with R103 (log 12), for any admitted `LOWER`: a text and its lowercased form have the same hash, and so have a text
and its uppercased form, for any admitted uppercasing function, when case-folding keeps the byte length; two texts of
characters below 0x80 that differ only in the case of letters have the same hash, with nothing asked of uppercasing. -/
def Obligations.HashIgnoresLetterCase : Prop :=
  ∀ lower : Normalizer.Text → Normalizer.Text, Normalizer.LowerOk lower →
    (∀ s, Normalizer.hashString lower (lower s) = Normalizer.hashString lower s) ∧
    (∀ upper, Normalizer.UpperOk lower upper → ∀ s, Normalizer.KeepsByteLength lower s →
      Normalizer.hashString lower (upper s) = Normalizer.hashString lower s ∧
      Normalizer.hashBytes lower (Normalizer.encodeUtf8 (upper s)) = Normalizer.hashBytes lower (Normalizer.encodeUtf8 s)) ∧
    ∀ s s' : Normalizer.Text, (∀ c ∈ s, c.toNat < 0x80) → (∀ c ∈ s', c.toNat < 0x80) →
      s.map Normalizer.asciiLower = s'.map Normalizer.asciiLower →
      Normalizer.hashString lower s = Normalizer.hashString lower s'

/-- R103 items 3 and 4 (log 12): an admitted `LOWER` turns each character below 0x80 into its lowercase, in its place: what stands
before it and after it in the text, lowercased, stands before it and after it in the result, in order and number, whatever
other characters are between. On a text of characters below 0x80 it acts character by character and keeps the length. -/
def Obligations.LowerActsOnEveryLetter : Prop :=
  ∀ lower : Normalizer.Text → Normalizer.Text, Normalizer.LowerOk lower →
    (∀ s : Normalizer.Text,
      ((s.filter fun c => decide (c.toNat < 0x80)).map Normalizer.asciiLower).Sublist (lower s)) ∧
    (∀ (s t : Normalizer.Text) (c : Char), c.toNat < 0x80 →
      ∃ x y, lower (s ++ c :: t) = x ++ Normalizer.asciiLower c :: y ∧
        ((s.filter fun c => decide (c.toNat < 0x80)).map Normalizer.asciiLower).Sublist x ∧
        ((t.filter fun c => decide (c.toNat < 0x80)).map Normalizer.asciiLower).Sublist y) ∧
    ∀ s : Normalizer.Text, (∀ c ∈ s, c.toNat < 0x80) →
      lower s = s.map Normalizer.asciiLower ∧
      (Normalizer.encodeUtf8 (lower s)).length = s.length
end

