-- ==== Sys2Proof/Laws/Encoding.lean ====
section
/-! SUPPORT. The fields of a packed frame and of a packed sequencer word are the ones packed. -/

namespace Sys2Proof

-- One thread at a time: many small theorems at once would each wait on a thread of its own.
set_option Elab.async false

theorem packFrame_toNat (op : BitVec 4) (idx : Byte) (data : Word) :
    (packFrame op idx data).toNat = op.toNat * 2 ^ 44 + idx.toNat * 2 ^ 32 + data.toNat := by
  have := op.isLt; have := idx.isLt; have := data.isLt
  simp only [packFrame, BitVec.toNat_append, BitVec.toNat_zero, Nat.or_zero]
  rw [← Nat.shiftLeft_add_eq_or_of_lt (by omega), ← Nat.shiftLeft_add_eq_or_of_lt (by omega)]
  simp only [Nat.shiftLeft_eq]
  omega

theorem packSeq_toNat (ph : BitVec 3) (cnt : BitVec 7) : (packSeq ph cnt).toNat = ph.toNat * 2 ^ 7 + cnt.toNat := by
  have := cnt.isLt
  simp only [packSeq, BitVec.toNat_append]
  rw [← Nat.shiftLeft_add_eq_or_of_lt (by omega), Nat.shiftLeft_eq]

variable (op : BitVec 4) (idx : Byte) (data : Word) (ph : BitVec 3) (cnt : BitVec 7)

@[simp] theorem frameOp_packFrame : frameOp (packFrame op idx data) = op := by
  have := op.isLt; have := idx.isLt; have := data.isLt
  apply BitVec.eq_of_toNat_eq
  simp only [frameOp, BitVec.extractLsb'_toNat, packFrame_toNat, Nat.shiftRight_eq_div_pow]
  omega

@[simp] theorem frameRsv_packFrame : frameRsv (packFrame op idx data) = 0#4 := by
  have := op.isLt; have := idx.isLt; have := data.isLt
  apply BitVec.eq_of_toNat_eq
  simp only [frameRsv, BitVec.extractLsb'_toNat, packFrame_toNat, Nat.shiftRight_eq_div_pow, BitVec.toNat_ofNat]
  omega

@[simp] theorem frameIdx_packFrame : frameIdx (packFrame op idx data) = idx := by
  have := op.isLt; have := idx.isLt; have := data.isLt
  apply BitVec.eq_of_toNat_eq
  simp only [frameIdx, BitVec.extractLsb'_toNat, packFrame_toNat, Nat.shiftRight_eq_div_pow]
  omega

@[simp] theorem frameData_packFrame : frameData (packFrame op idx data) = data := by
  have := op.isLt; have := idx.isLt; have := data.isLt
  apply BitVec.eq_of_toNat_eq
  simp only [frameData, BitVec.extractLsb'_toNat, packFrame_toNat, Nat.shiftRight_eq_div_pow]
  omega

/-- A frame on the opcode map decodes by the map alone. -/
@[simp] theorem decodeFrame_packFrame : decodeFrame (packFrame op idx data) = decodeOp op idx data := by
  simp [decodeFrame]

@[simp] theorem seqPhase_packSeq : (packSeq ph cnt).extractLsb' 7 3 = ph := by
  have := ph.isLt; have := cnt.isLt
  apply BitVec.eq_of_toNat_eq
  simp only [BitVec.extractLsb'_toNat, packSeq_toNat, Nat.shiftRight_eq_div_pow]
  omega

@[simp] theorem seqCount_packSeq : (packSeq ph cnt).extractLsb' 0 7 = cnt := by
  have := ph.isLt; have := cnt.isLt
  apply BitVec.eq_of_toNat_eq
  simp only [BitVec.extractLsb'_toNat, packSeq_toNat, Nat.shiftRight_eq_div_pow]
  omega

/-- A sequencer word decodes by the selection table on its two fields. -/
@[simp] theorem decodeSeq_packSeq : decodeSeq (packSeq ph cnt) = decodePhase ph cnt.toNat := by
  simp [decodeSeq]

/-! ## What the parts of the decoder answer -/

theorem decodeBare_eq_instr {i j : Instr} : decodeBare i idx data = .instr j ↔ i = j ∧ idx = 0 ∧ data = 0 := by
  unfold decodeBare
  split <;> simp_all

theorem decodeRead_eq_instr {mk : Nat → Instr} {bound : Nat} {j : Instr} :
    decodeRead mk bound idx data = .instr j ↔ mk idx.toNat = j ∧ data = 0 ∧ idx.toNat < bound := by
  unfold decodeRead
  split
  · simp_all
  · split <;> simp_all

/-- A frame decodes to a host command or to nothing (R70, R76). -/
theorem isCommand_of_decodeFrame {c : Frame} {i : Instr} (h : decodeFrame c = .instr i) : i.isCommand = true := by
  unfold decodeFrame at h
  split at h
  · unfold decodeOp at h
    repeat' split at h
    all_goals first
      | (obtain ⟨rfl, -⟩ := decodeBare_eq_instr _ _ |>.1 h; rfl)
      | (obtain ⟨rfl, -⟩ := decodeRead_eq_instr _ _ |>.1 h; rfl)
      | (cases h; done)
      | (cases h; rfl)
  · cases h

end Sys2Proof

namespace Sys2Proof.Machine

/-- The codes of `PH` name the phases one to one. -/
@[simp] theorem Phase.ofCode_code (p : Phase) : Phase.ofCode p.code = p := by cases p <;> rfl

/-- The sequencer word of a core decodes by the selection table on its phase and step. -/
theorem CoreState.decodeSeq_seqWord (s : CoreState) : decodeSeq s.seqWord = decodePhase s.ph.code s.cnt.toNat := by
  simp [CoreState.seqWord]

end Sys2Proof.Machine
end

