-- ==== Sys2Proof/Laws/Memory.lean ====
section
/-! SUPPORT. The laws of the buffer: every memory operation keeps the canonical form, a byte read after a write gives the
written byte, and every other byte reads as before. -/

namespace Sys2Proof.Machine.Memory

-- One thread at a time: many small theorems at once would each wait on a thread of its own.
set_option Elab.async false

variable {m : Memory} {lo a x : Nat} {b : Byte}

theorem wfFrom_cons {k : Nat} {v : Byte} :
    wfFrom lo ((k, v) :: m) = true ↔ lo ≤ k ∧ k < 1024 ∧ v ≠ 0 ∧ wfFrom (k + 1) m = true := by
  simp only [wfFrom, Bool.and_eq_true, decide_eq_true_eq, Config.bufBytes, and_assoc]

theorem wfFrom_mono {lo' : Nat} (h : wfFrom lo m = true) (hle : lo' ≤ lo) : wfFrom lo' m = true := by
  cases m with
  | nil => rfl
  | cons p m =>
    obtain ⟨k, v⟩ := p
    rw [wfFrom_cons] at h ⊢
    exact ⟨hle.trans h.1, h.2⟩

/-- Below its first address a canonical buffer reads zero. -/
theorem byte_of_lt (h : wfFrom lo m = true) (hx : x < lo) : m.byte x = 0 := by
  induction m generalizing lo with
  | nil => rfl
  | cons p m ih =>
    obtain ⟨k, v⟩ := p
    rw [wfFrom_cons] at h
    simp only [byte, if_neg (show ¬ k = x by omega)]
    exact ih h.2.2.2 (by omega)

theorem wfFrom_set (h : wfFrom lo m = true) (hlo : lo ≤ a) (ha : a < 1024) : wfFrom lo (m.set a b) = true := by
  induction m generalizing lo with
  | nil =>
    unfold set
    split
    · rfl
    · next hb => exact wfFrom_cons.2 ⟨hlo, ha, hb, rfl⟩
  | cons p m ih =>
    obtain ⟨k, v⟩ := p
    have hc := wfFrom_cons.1 h
    unfold set
    split
    · next hk =>
      split
      · exact h
      · next hb => exact wfFrom_cons.2 ⟨hlo, ha, hb, wfFrom_cons.2 ⟨hk, hc.2⟩⟩
    · next hk =>
      split
      · next hak =>
        split
        · exact wfFrom_mono hc.2.2.2 (by omega)
        · next hb => exact wfFrom_cons.2 ⟨hlo, ha, hb, hak ▸ hc.2.2.2⟩
      · next hak => exact wfFrom_cons.2 ⟨hc.1, hc.2.1, hc.2.2.1, ih hc.2.2.2 (by omega)⟩

/-- A read after a write of one byte. -/
theorem byte_set (h : wfFrom lo m = true) (x : Nat) : (m.set a b).byte x = if x = a then b else m.byte x := by
  induction m generalizing lo with
  | nil =>
    unfold set
    split
    · next hb => simp [byte, hb]
    · simp [byte, eq_comm]
  | cons p m ih =>
    obtain ⟨k, v⟩ := p
    have hc := wfFrom_cons.1 h
    unfold set
    split
    · next hk =>
      split
      · next hb =>
        split
        · next hx => rw [hb, hx]; exact byte_of_lt (wfFrom_cons.2 ⟨le_refl k, hc.2⟩) hk
        · rfl
      · simp only [byte, eq_comm (a := a)]
    · next hk =>
      split
      · next hak =>
        subst hak
        split
        · next hb =>
          by_cases hx : x = a
          · rw [if_pos hx, hx, byte_of_lt hc.2.2.2 (Nat.lt_succ_self a), hb]
          · rw [if_neg hx, byte, if_neg (Ne.symm hx)]
        · by_cases hx : x = a
          · simp [byte, hx]
          · simp [byte, hx, Ne.symm hx]
      · next hak =>
        rw [byte, ih hc.2.2.2]
        by_cases hkx : k = x
        · simp [byte, hkx, show ¬ x = a by omega]
        · simp [byte, hkx]

/-! ## Canonical buffers -/

theorem byte_set_of_wf (h : m.wf = true) (x : Nat) : (m.set a b).byte x = if x = a then b else m.byte x :=
  byte_set h x

theorem wf_set (h : m.wf = true) (ha : a < 1024) : (m.set a b).wf = true := wfFrom_set h (Nat.zero_le a) ha

@[simp] theorem wf_nil : wf [] = true := rfl

@[simp] theorem byte_nil (x : Nat) : byte [] x = 0 := rfl

@[simp] theorem writeBytes_nil (m : Memory) (a : Nat) : m.writeBytes a [] = m := rfl

@[simp] theorem writeBytes_cons (m : Memory) (a : Nat) (b : Byte) (bs : List Byte) :
    m.writeBytes a (b :: bs) = (m.set a b).writeBytes (a + 1) bs := rfl

/-- `MemWrite` inside the buffer keeps the canonical form. -/
theorem wf_writeBytes {bs : List Byte} (h : m.wf = true) (ha : a + bs.length ≤ 1024) : (m.writeBytes a bs).wf = true := by
  induction bs generalizing m a with
  | nil => exact h
  | cons b bs ih =>
    simp only [List.length_cons] at ha
    exact ih (wf_set h (by omega)) (by omega)

/-- A byte read after `MemWrite`: inside the stored bytes the stored byte, outside them what was there. -/
theorem byte_writeBytes {bs : List Byte} (h : m.wf = true) (ha : a + bs.length ≤ 1024) (x : Nat) :
    (m.writeBytes a bs).byte x = if a ≤ x ∧ x < a + bs.length then bs.getD (x - a) 0 else m.byte x := by
  induction bs generalizing m a with
  | nil => simp [show ¬ (a ≤ x ∧ x < a) by omega]
  | cons b bs ih =>
    simp only [List.length_cons] at ha ⊢
    rw [writeBytes_cons, ih (wf_set h (by omega)) (by omega), byte_set_of_wf h]
    by_cases hxa : x = a
    · simp [hxa]
    · by_cases hin : a + 1 ≤ x ∧ x < a + 1 + bs.length
      · rw [if_pos hin, if_pos (by omega), show x - a = (x - (a + 1)) + 1 by omega, List.getD_cons_succ]
      · rw [if_neg hin, if_neg hxa, if_neg (by omega)]

/-! ## The word view -/

@[simp] theorem length_leBytes (v : Word) : (leBytes v).length = 4 := rfl

/-- A little-endian word as a number. -/
theorem leWord_toNat (b0 b1 b2 b3 : Byte) :
    (leWord b0 b1 b2 b3).toNat = b0.toNat + 2 ^ 8 * b1.toNat + 2 ^ 16 * b2.toNat + 2 ^ 24 * b3.toNat := by
  have := b0.isLt; have := b1.isLt; have := b2.isLt; have := b3.isLt
  simp only [leWord, BitVec.toNat_append]
  rw [← Nat.shiftLeft_add_eq_or_of_lt (by omega), ← Nat.shiftLeft_add_eq_or_of_lt (by omega),
    ← Nat.shiftLeft_add_eq_or_of_lt (by omega)]
  simp only [Nat.shiftLeft_eq]
  omega

/-- The four bytes of a word, put together again, are the word. -/
@[simp] theorem leWord_leBytes (v : Word) :
    leWord (v.extractLsb' 0 8) (v.extractLsb' 8 8) (v.extractLsb' 16 8) (v.extractLsb' 24 8) = v := by
  have := v.isLt
  apply BitVec.eq_of_toNat_eq
  rw [leWord_toNat]
  simp only [BitVec.extractLsb'_toNat, Nat.shiftRight_eq_div_pow]
  omega

/-- Writing `W[i]` keeps the canonical form. -/
theorem wf_writeWord {i : Nat} {v : Word} (h : m.wf = true) (hi : i < 256) : (m.writeWord i v).wf = true :=
  wf_writeBytes h (by simp; omega)

/-- A byte after a write of `W[i]`. -/
theorem byte_writeWord {i : Nat} {v : Word} (h : m.wf = true) (hi : i < 256) (x : Nat) :
    (m.writeWord i v).byte x = if 4 * i ≤ x ∧ x < 4 * i + 4 then (leBytes v).getD (x - 4 * i) 0 else m.byte x :=
  byte_writeBytes h (by simp; omega) x

/-- `W[i]` after a write of `W[i]`. -/
theorem word_writeWord_self {i : Nat} {v : Word} (h : m.wf = true) (hi : i < 256) : (m.writeWord i v).word i = v := by
  simp [word, byte_writeWord h hi, leBytes]

/-- Another word after a write of `W[i]`. -/
theorem word_writeWord_of_ne {i j : Nat} {v : Word} (h : m.wf = true) (hi : i < 256) (hj : j ≠ i) :
    (m.writeWord i v).word j = m.word j := by
  have h0 : ∀ x, 4 * j ≤ x → x < 4 * j + 4 → (m.writeWord i v).byte x = m.byte x := fun x h1 h2 => by
    rw [byte_writeWord h hi, if_neg (by omega)]
  simp only [word]
  rw [h0, h0, h0, h0] <;> omega

end Sys2Proof.Machine.Memory
end

