-- ==== Sys2Proof/Laws/State.lean ====
section
/-! SUPPORT. One lemma per field per update of the state, true by rfl, so that no later proof unfolds a record update. -/

namespace Sys2Proof.Machine

-- One thread at a time: many small theorems at once would each wait on a thread of its own.
set_option Elab.async false

/-! ## The machine: respond, withCore, raiseInvalidData, clear, takeTurn -/

@[simp] theorem State.respond_core (st : Status) (data : Word) (s : State) :
    (s.respond st data).core = s.core := rfl
@[simp] theorem State.respond_turns (st : Status) (data : Word) (s : State) :
    (s.respond st data).turns = s.turns := rfl
@[simp] theorem State.respond_responses (st : Status) (data : Word) (s : State) :
    (s.respond st data).responses = reply st data :: s.responses := rfl
@[simp] theorem State.withCore_core (s : State) (c : CoreState) : (s.withCore c).core = c := rfl
@[simp] theorem State.withCore_turns (s : State) (c : CoreState) : (s.withCore c).turns = s.turns := rfl
@[simp] theorem State.withCore_responses (s : State) (c : CoreState) : (s.withCore c).responses = s.responses := rfl
@[simp] theorem State.raiseInvalidData_core (cause : ECause) (s : State) :
    (s.raiseInvalidData cause).core = s.core.enterError cause := rfl
@[simp] theorem State.raiseInvalidData_turns (cause : ECause) (s : State) :
    (s.raiseInvalidData cause).turns = s.turns := rfl
@[simp] theorem State.raiseInvalidData_responses (cause : ECause) (s : State) :
    (s.raiseInvalidData cause).responses = reply .invalidData 0 :: s.responses := rfl
@[simp] theorem State.clear_core (s : State) : s.clear.core = CoreState.reset := rfl
@[simp] theorem State.clear_turns (s : State) : s.clear.turns = s.turns := rfl
@[simp] theorem State.clear_responses (s : State) : s.clear.responses = s.responses := rfl
@[simp] theorem State.takeTurn_core (s : State) : s.takeTurn.core = s.core := rfl
@[simp] theorem State.takeTurn_turns (s : State) : s.takeTurn.turns = s.turns.tail := rfl
@[simp] theorem State.takeTurn_responses (s : State) : s.takeTurn.responses = s.responses := rfl
@[simp] theorem State.reset_core : State.reset.core = CoreState.reset := rfl
@[simp] theorem State.reset_turns : State.reset.turns = [] := rfl
@[simp] theorem State.reset_responses : State.reset.responses = [] := rfl

/-! ## The core after reset -/

@[simp] theorem CoreState.reset_ph : CoreState.reset.ph = .idle := rfl
@[simp] theorem CoreState.reset_cnt : CoreState.reset.cnt = 0 := rfl
@[simp] theorem CoreState.reset_ecause : CoreState.reset.ecause = .none := rfl
@[simp] theorem CoreState.reset_len : CoreState.reset.len = 0 := rfl
@[simp] theorem CoreState.reset_buf : CoreState.reset.buf = [] := rfl
@[simp] theorem CoreState.reset_a : CoreState.reset.a = 0 := rfl
@[simp] theorem CoreState.reset_b : CoreState.reset.b = 0 := rfl
@[simp] theorem CoreState.reset_c : CoreState.reset.c = 0 := rfl
@[simp] theorem CoreState.reset_d : CoreState.reset.d = 0 := rfl
@[simp] theorem CoreState.reset_e : CoreState.reset.e = 0 := rfl

/-! ## The error entry -/

@[simp] theorem CoreState.enterError_ph (cause : ECause) (s : CoreState) : (s.enterError cause).ph = .error := rfl
@[simp] theorem CoreState.enterError_cnt (cause : ECause) (s : CoreState) : (s.enterError cause).cnt = 0 := rfl
@[simp] theorem CoreState.enterError_ecause (cause : ECause) (s : CoreState) :
    (s.enterError cause).ecause = cause := rfl
@[simp] theorem CoreState.enterError_len (cause : ECause) (s : CoreState) : (s.enterError cause).len = s.len := rfl
@[simp] theorem CoreState.enterError_buf (cause : ECause) (s : CoreState) : (s.enterError cause).buf = s.buf := rfl
@[simp] theorem CoreState.enterError_a (cause : ECause) (s : CoreState) : (s.enterError cause).a = s.a := rfl
@[simp] theorem CoreState.enterError_b (cause : ECause) (s : CoreState) : (s.enterError cause).b = s.b := rfl
@[simp] theorem CoreState.enterError_c (cause : ECause) (s : CoreState) : (s.enterError cause).c = s.c := rfl
@[simp] theorem CoreState.enterError_d (cause : ECause) (s : CoreState) : (s.enterError cause).d = s.d := rfl
@[simp] theorem CoreState.enterError_e (cause : ECause) (s : CoreState) : (s.enterError cause).e = s.e := rfl

/-! ## START -/

@[simp] theorem CoreState.startRun_ph (s : CoreState) : s.startRun.ph = .expand := rfl
@[simp] theorem CoreState.startRun_cnt (s : CoreState) : s.startRun.cnt = 0 := rfl
@[simp] theorem CoreState.startRun_ecause (s : CoreState) : s.startRun.ecause = s.ecause := rfl
@[simp] theorem CoreState.startRun_len (s : CoreState) : s.startRun.len = s.len := rfl
@[simp] theorem CoreState.startRun_buf (s : CoreState) : s.startRun.buf = s.buf := rfl
@[simp] theorem CoreState.startRun_a (s : CoreState) : s.startRun.a = s.a := rfl
@[simp] theorem CoreState.startRun_b (s : CoreState) : s.startRun.b = s.b := rfl
@[simp] theorem CoreState.startRun_c (s : CoreState) : s.startRun.c = s.c := rfl
@[simp] theorem CoreState.startRun_d (s : CoreState) : s.startRun.d = s.d := rfl
@[simp] theorem CoreState.startRun_e (s : CoreState) : s.startRun.e = s.e := rfl

/-! ## HINIT -/

@[simp] theorem CoreState.hinit_ph (s : CoreState) : s.hinit.ph = .round := rfl
@[simp] theorem CoreState.hinit_cnt (s : CoreState) : s.hinit.cnt = 0 := rfl
@[simp] theorem CoreState.hinit_ecause (s : CoreState) : s.hinit.ecause = s.ecause := rfl
@[simp] theorem CoreState.hinit_len (s : CoreState) : s.hinit.len = s.len := rfl
@[simp] theorem CoreState.hinit_buf (s : CoreState) : s.hinit.buf = s.buf := rfl
@[simp] theorem CoreState.hinit_a (s : CoreState) : s.hinit.a = iv0 := rfl
@[simp] theorem CoreState.hinit_b (s : CoreState) : s.hinit.b = iv1 := rfl
@[simp] theorem CoreState.hinit_c (s : CoreState) : s.hinit.c = iv2 := rfl
@[simp] theorem CoreState.hinit_d (s : CoreState) : s.hinit.d = iv3 := rfl
@[simp] theorem CoreState.hinit_e (s : CoreState) : s.hinit.e = iv4 := rfl

/-! ## A round's accumulators -/

@[simp] theorem CoreState.mixIn_ph (f : Word → Word → Word → Word) (k w : Word) (s : CoreState) :
    (s.mixIn f k w).ph = s.ph := rfl
@[simp] theorem CoreState.mixIn_cnt (f : Word → Word → Word → Word) (k w : Word) (s : CoreState) :
    (s.mixIn f k w).cnt = s.cnt := rfl
@[simp] theorem CoreState.mixIn_ecause (f : Word → Word → Word → Word) (k w : Word) (s : CoreState) :
    (s.mixIn f k w).ecause = s.ecause := rfl
@[simp] theorem CoreState.mixIn_len (f : Word → Word → Word → Word) (k w : Word) (s : CoreState) :
    (s.mixIn f k w).len = s.len := rfl
@[simp] theorem CoreState.mixIn_buf (f : Word → Word → Word → Word) (k w : Word) (s : CoreState) :
    (s.mixIn f k w).buf = s.buf := rfl
@[simp] theorem CoreState.mixIn_a (f : Word → Word → Word → Word) (k w : Word) (s : CoreState) :
    (s.mixIn f k w).a = roundSum w s.a s.e (f s.b s.c s.d) k := rfl
@[simp] theorem CoreState.mixIn_b (f : Word → Word → Word → Word) (k w : Word) (s : CoreState) :
    (s.mixIn f k w).b = s.a := rfl
@[simp] theorem CoreState.mixIn_c (f : Word → Word → Word → Word) (k w : Word) (s : CoreState) :
    (s.mixIn f k w).c = rol32 s.b 30 := rfl
@[simp] theorem CoreState.mixIn_d (f : Word → Word → Word → Word) (k w : Word) (s : CoreState) :
    (s.mixIn f k w).d = s.c := rfl
@[simp] theorem CoreState.mixIn_e (f : Word → Word → Word → Word) (k w : Word) (s : CoreState) :
    (s.mixIn f k w).e = s.d := rfl

/-! ## FIN -/

@[simp] theorem CoreState.fin_ph (s : CoreState) : s.fin.ph = .done := rfl
@[simp] theorem CoreState.fin_cnt (s : CoreState) : s.fin.cnt = s.cnt := rfl
@[simp] theorem CoreState.fin_ecause (s : CoreState) : s.fin.ecause = s.ecause := rfl
@[simp] theorem CoreState.fin_len (s : CoreState) : s.fin.len = s.len := rfl
@[simp] theorem CoreState.fin_buf (s : CoreState) : s.fin.buf = s.buf := rfl
@[simp] theorem CoreState.fin_a (s : CoreState) : s.fin.a = s.a + iv0 := rfl
@[simp] theorem CoreState.fin_b (s : CoreState) : s.fin.b = s.b + iv1 := rfl
@[simp] theorem CoreState.fin_c (s : CoreState) : s.fin.c = s.c + iv2 := rfl
@[simp] theorem CoreState.fin_d (s : CoreState) : s.fin.d = s.d + iv3 := rfl
@[simp] theorem CoreState.fin_e (s : CoreState) : s.fin.e = s.e + iv4 := rfl

/-! ## XSTEP and the rounds, whose phase and step depend on the index -/

@[simp] theorem CoreState.xstep_ph (i : Nat) (s : CoreState) : (s.xstep i).ph = if i = 63 then .init else s.ph := by
  unfold CoreState.xstep; split <;> rfl
@[simp] theorem CoreState.xstep_cnt (i : Nat) (s : CoreState) :
    (s.xstep i).cnt = if i = 63 then 0 else BitVec.ofNat 7 (i + 1) := by
  unfold CoreState.xstep; split <;> rfl
@[simp] theorem CoreState.xstep_ecause (i : Nat) (s : CoreState) : (s.xstep i).ecause = s.ecause := by
  unfold CoreState.xstep; split <;> rfl
@[simp] theorem CoreState.xstep_len (i : Nat) (s : CoreState) : (s.xstep i).len = s.len := by
  unfold CoreState.xstep; split <;> rfl
@[simp] theorem CoreState.xstep_buf (i : Nat) (s : CoreState) :
    (s.xstep i).buf = s.buf.writeWord (i + 16) (s.buf.expansion i) := by
  unfold CoreState.xstep; split <;> rfl
@[simp] theorem CoreState.xstep_a (i : Nat) (s : CoreState) : (s.xstep i).a = s.a := by
  unfold CoreState.xstep; split <;> rfl
@[simp] theorem CoreState.xstep_b (i : Nat) (s : CoreState) : (s.xstep i).b = s.b := by
  unfold CoreState.xstep; split <;> rfl
@[simp] theorem CoreState.xstep_c (i : Nat) (s : CoreState) : (s.xstep i).c = s.c := by
  unfold CoreState.xstep; split <;> rfl
@[simp] theorem CoreState.xstep_d (i : Nat) (s : CoreState) : (s.xstep i).d = s.d := by
  unfold CoreState.xstep; split <;> rfl
@[simp] theorem CoreState.xstep_e (i : Nat) (s : CoreState) : (s.xstep i).e = s.e := by
  unfold CoreState.xstep; split <;> rfl
@[simp] theorem CoreState.roundStep_ph (f : Word → Word → Word → Word) (k : Word) (t : Nat) (s : CoreState) :
    (s.roundStep f k t).ph = if t = 79 then .final else s.ph := by
  unfold CoreState.roundStep; split <;> rfl
@[simp] theorem CoreState.roundStep_cnt (f : Word → Word → Word → Word) (k : Word) (t : Nat) (s : CoreState) :
    (s.roundStep f k t).cnt = if t = 79 then 0 else BitVec.ofNat 7 (t + 1) := by
  unfold CoreState.roundStep; split <;> rfl
@[simp] theorem CoreState.roundStep_ecause (f : Word → Word → Word → Word) (k : Word) (t : Nat) (s : CoreState) :
    (s.roundStep f k t).ecause = s.ecause := by
  unfold CoreState.roundStep; split <;> rfl
@[simp] theorem CoreState.roundStep_len (f : Word → Word → Word → Word) (k : Word) (t : Nat) (s : CoreState) :
    (s.roundStep f k t).len = s.len := by
  unfold CoreState.roundStep; split <;> rfl
@[simp] theorem CoreState.roundStep_buf (f : Word → Word → Word → Word) (k : Word) (t : Nat) (s : CoreState) :
    (s.roundStep f k t).buf = s.buf := by
  unfold CoreState.roundStep; split <;> rfl
@[simp] theorem CoreState.roundStep_a (f : Word → Word → Word → Word) (k : Word) (t : Nat) (s : CoreState) :
    (s.roundStep f k t).a = roundSum (s.buf.word t) s.a s.e (f s.b s.c s.d) k := by
  unfold CoreState.roundStep; split <;> rfl
@[simp] theorem CoreState.roundStep_b (f : Word → Word → Word → Word) (k : Word) (t : Nat) (s : CoreState) :
    (s.roundStep f k t).b = s.a := by
  unfold CoreState.roundStep; split <;> rfl
@[simp] theorem CoreState.roundStep_c (f : Word → Word → Word → Word) (k : Word) (t : Nat) (s : CoreState) :
    (s.roundStep f k t).c = rol32 s.b 30 := by
  unfold CoreState.roundStep; split <;> rfl
@[simp] theorem CoreState.roundStep_d (f : Word → Word → Word → Word) (k : Word) (t : Nat) (s : CoreState) :
    (s.roundStep f k t).d = s.c := by
  unfold CoreState.roundStep; split <;> rfl
@[simp] theorem CoreState.roundStep_e (f : Word → Word → Word → Word) (k : Word) (t : Nat) (s : CoreState) :
    (s.roundStep f k t).e = s.d := by
  unfold CoreState.roundStep; split <;> rfl

/-! ## Two states with the same fields are the same -/

theorem State.ext_fields {s t : State} (hc : s.core = t.core) (ht : s.turns = t.turns) (hr : s.responses = t.responses) :
    s = t := by
  cases s; cases t; simp_all

theorem State.withCore_self (s : State) : s.withCore s.core = s := rfl

end Sys2Proof.Machine
end

