-- ==== Sys2Proof/Laws/Ops.lean ====
section
/-! SUPPORT. For each shared operation one lemma that says once everything it can do. -/

namespace Sys2Proof.Machine

-- One thread at a time: many small theorems at once would each wait on a thread of its own.
set_option Elab.async false

/-! ## Responses -/

theorem reply_toNat (st : Status) (data : Word) : (reply st data).toNat = st.code.toNat * 2 ^ 32 + data.toNat := by
  have := data.isLt
  simp only [reply, BitVec.toNat_append]
  rw [← Nat.shiftLeft_add_eq_or_of_lt (by omega), Nat.shiftLeft_eq]

@[simp] theorem replyStatus_reply (st : Status) (data : Word) : Driver.replyStatus (reply st data) = st.code := by
  have := st.code.isLt; have := data.isLt
  apply BitVec.eq_of_toNat_eq
  simp only [Driver.replyStatus, BitVec.extractLsb'_toNat, reply_toNat, Nat.shiftRight_eq_div_pow]
  omega

@[simp] theorem replyData_reply (st : Status) (data : Word) : Driver.replyData (reply st data) = data := by
  have := data.isLt
  apply BitVec.eq_of_toNat_eq
  simp only [Driver.replyData, BitVec.extractLsb'_toNat, reply_toNat, Nat.shiftRight_eq_div_pow]
  omega

/-! ## The phase gate -/

/-- The four ends of the phase gate, with what leads to each (R77, R79). -/
theorem State.whenPhase_cases (need : Phase) (s done : State) :
    (s.core.pairLegal = false ∧ s.whenPhase need done = s.respond .refused 0) ∨
    (s.core.pairLegal = true ∧ s.core.ph = .error ∧ s.whenPhase need done = s.respond .invalidData 0) ∨
    (s.core.pairLegal = true ∧ s.core.ph ≠ .error ∧ s.core.ph = need ∧ s.whenPhase need done = done) ∨
    (s.core.pairLegal = true ∧ s.core.ph ≠ .error ∧ s.core.ph ≠ need ∧ s.whenPhase need done = s.respond .refused 0) := by
  unfold State.whenPhase
  split
  · exact .inl ⟨by assumption, rfl⟩
  · next hp =>
    have hp : s.core.pairLegal = true := by simpa using hp
    split
    · exact .inr (.inl ⟨hp, by assumption, rfl⟩)
    · next he =>
      split
      · exact .inr (.inr (.inl ⟨hp, he, by assumption, rfl⟩))
      · exact .inr (.inr (.inr ⟨hp, he, by assumption, rfl⟩))

/-- In the phase it needs, the command's own rule is done. -/
theorem State.whenPhase_of_phase {need : Phase} {s done : State} (hp : s.core.pairLegal = true) (he : need ≠ .error)
    (hn : s.core.ph = need) : s.whenPhase need done = done := by
  subst hn
  simp [State.whenPhase, hp, he]

/-! ## Appending, reading out, micro-operations -/

/-- The two ends of an append (R122, R123). -/
theorem State.appendBytes_cases (bs : List Byte) (s : State) :
    (s.core.len.toNat + bs.length ≤ 1024 ∧
      s.appendBytes bs = (s.withCore { s.core with
        buf := s.core.buf.writeBytes s.core.len.toNat bs
        len := s.core.len + BitVec.ofNat 11 bs.length }).respond .ok 0) ∨
    (1024 < s.core.len.toNat + bs.length ∧ s.appendBytes bs = s.raiseInvalidData .overflow) := by
  unfold State.appendBytes
  split
  · exact .inl ⟨by assumption, rfl⟩
  · next h => exact .inr ⟨by simpa using h, rfl⟩

/-- What an output read can do (R76 item 7, R77, R204 to R206): it changes no core state. -/
theorem State.readOutput_cases (view : Option Word) (s : State) :
    (view = none ∧ s.readOutput view = s.respond .illegal 0) ∨
    (∃ data, view = some data ∧ s.readOutput view = s.whenPhase .done (s.respond .ok data)) := by
  cases view with
  | none => exact .inl ⟨rfl, rfl⟩
  | some data => exact .inr ⟨data, rfl, rfl⟩

@[simp] theorem State.whenPhase_respond_core (need : Phase) (s : State) (st : Status) (data : Word) :
    (s.whenPhase need (s.respond st data)).core = s.core := by
  unfold State.whenPhase
  split
  · rfl
  · split
    · rfl
    · split <;> rfl

/-- What a micro-operation can do (R58, R79, R224): the error entry, a fault, or its effect; it never gives a response. -/
theorem State.microOp_cases (top : Nat) (inRange : Bool) (s : State) (after : CoreState) :
    (256 ≤ top ∧ s.microOp top inRange after = .next (s.withCore (s.core.enterError .internal))) ∨
    (top < 256 ∧ inRange = false ∧ s.microOp top inRange after = .fault .stuckSequencer) ∨
    (top < 256 ∧ inRange = true ∧ s.microOp top inRange after = .next (s.withCore after)) := by
  unfold State.microOp
  split
  · exact .inl ⟨by assumption, rfl⟩
  · next h =>
    have h : top < 256 := by simpa using h
    cases inRange with
    | true => exact .inr (.inr ⟨h, rfl, rfl⟩)
    | false => exact .inr (.inl ⟨h, rfl, rfl⟩)

/-! ## The step -/

/-- What one step can do: the five kinds of turn (R60, R76, R144, R250). -/
theorem step_cases (s : State) :
    (∃ i, s.fetch = .run i ∧ step s = exec i s.takeTurn) ∨
    (s.fetch = .illegalFrame ∧ step s = .next (s.takeTurn.respond .illegal 0)) ∨
    (s.fetch = .noStep ∧ step s = .next s.takeTurn) ∨
    (s.fetch = .stuck ∧ step s = .fault .stuckSequencer) ∨
    (s.fetch = .reset ∧ step s = .next s.takeTurn.clear) := by
  unfold step
  split <;> simp_all

end Sys2Proof.Machine
end

