-- ==== Sys2Proof/Laws/Meanings.lean ====
section
/-! SUPPORT. One lemma per instruction: what `exec` answers, in terms of the shared operations, where its own rule applies.
The constants as numbers, and the rows of spec/10_state.md R27 as facts about `pairLegal`. -/

namespace Sys2Proof.Machine

-- One thread at a time: many small theorems at once would each wait on a thread of its own.
set_option Elab.async false

theorem iv0_eq : iv0 = 0x67452301#32 := by unfold iv0; rfl
theorem iv1_eq : iv1 = 0xEFCDAB89#32 := by unfold iv1; rfl
theorem iv2_eq : iv2 = 0x98BADCFE#32 := by unfold iv2; rfl
theorem iv3_eq : iv3 = 0x10325476#32 := by unfold iv3; rfl
theorem iv4_eq : iv4 = 0xC3D2E1F0#32 := by unfold iv4; rfl
theorem k1_eq : k1 = 0x5A827999#32 := by unfold k1; rfl
theorem k2_eq : k2 = 0x6ED9EBA1#32 := by unfold k2; rfl
theorem k3_eq : k3 = 0x8F1BBCDC#32 := by unfold k3; rfl
theorem k4_eq : k4 = 0xCA62C1D6#32 := by unfold k4; rfl

/-! ## The rows of R27 -/

theorem isReached_decodeRound (n : Nat) : (decodeRound n).isReached = decide (n < 80) := by
  unfold decodeRound
  split_ifs <;> simp [Decoded.isReached] <;> omega

/-- The legal pairs are the rows of R27. -/
theorem CoreState.pairLegal_iff (c : CoreState) : c.pairLegal = true ↔
    (c.ph = .expand ∧ c.cnt.toNat < 64) ∨ (c.ph = .round ∧ c.cnt.toNat < 80) ∨
      ((c.ph = .idle ∨ c.ph = .init ∨ c.ph = .final ∨ c.ph = .done ∨ c.ph = .error) ∧ c.cnt.toNat = 0) := by
  unfold CoreState.pairLegal
  rw [CoreState.decodeSeq_seqWord]
  generalize c.cnt.toNat = n
  cases c.ph <;> simp [Phase.code, decodePhase, decodeAtZero, isReached_decodeRound, apply_ite Decoded.isReached] <;>
    simp [Decoded.isReached]

/-! ## Commands -/

theorem exec_nop (s : State) : exec .nop s = .next (s.respond .ok 0) := rfl

theorem exec_clr (s : State) : exec .clr s = .next (s.clear.respond .ok 0) := rfl

theorem exec_stat (s : State) : exec .stat s = .next (s.respond .ok s.core.statusWord) := rfl

theorem exec_pushb (b : Byte) (s : State) : exec (.pushb b) s = .next (s.whenPhase .idle (s.appendBytes [b])) := rfl

theorem exec_pushw (w : Word) (s : State) :
    exec (.pushw w) s = .next (s.whenPhase .idle (s.appendBytes (leBytes w))) := rfl

theorem exec_start (s : State) : exec .start s = .next (s.whenPhase .idle
    (if s.core.len = 0 then s.raiseInvalidData .empty else (s.withCore s.core.startRun).respond .ok 0)) := rfl

theorem exec_rdb (k : Nat) (s : State) :
    exec (.rdb k) s = .next (s.readOutput (s.core.digestBytes[k]?.map (BitVec.setWidth 32))) := rfl

theorem exec_rdw (k : Nat) (s : State) : exec (.rdw k) s = .next (s.readOutput s.core.digestWords[k]?) := rfl

theorem exec_rdh (k : Nat) (s : State) :
    exec (.rdh k) s = .next (s.readOutput (s.core.hexDigest[k]?.map (BitVec.setWidth 32))) := rfl

/-! ## Micro-operations on the operands of their rows -/

theorem State.microOp_of_inRange {top : Nat} {s : State} {after : CoreState} (h : top < 256) :
    s.microOp top true after = .next (s.withCore after) := by
  simp [State.microOp, show ¬ 256 ≤ top by omega]

theorem exec_xstep {i : Nat} (h : i < 64) (s : State) : exec (.xstep i) s = .next (s.withCore (s.core.xstep i)) := by
  have hd : decide (i < Config.nExp) = true := decide_eq_true h
  simp only [exec, execXstep, hd, State.microOp_of_inRange (show i + 16 < 256 by omega)]

theorem exec_hinit (s : State) : exec .hinit s = .next (s.withCore s.core.hinit) := rfl

theorem exec_rstep1 {t : Nat} (h : t < 20) (s : State) :
    exec (.rstep1 t) s = .next (s.withCore (s.core.roundStep mixChoose k1 t)) := by
  simp only [exec, execRstep1, decide_eq_true h, State.microOp_of_inRange (show t < 256 by omega)]

theorem exec_rstep2 {t : Nat} (h : 20 ≤ t ∧ t < 40) (s : State) :
    exec (.rstep2 t) s = .next (s.withCore (s.core.roundStep mixParity k2 t)) := by
  simp only [exec, execRstep2, decide_eq_true h, State.microOp_of_inRange (show t < 256 by omega)]

theorem exec_rstep3 {t : Nat} (h : 40 ≤ t ∧ t < 60) (s : State) :
    exec (.rstep3 t) s = .next (s.withCore (s.core.roundStep mixMajority k3 t)) := by
  simp only [exec, execRstep3, decide_eq_true h, State.microOp_of_inRange (show t < 256 by omega)]

theorem exec_rstep4 {t : Nat} (h : 60 ≤ t ∧ t < 80) (s : State) :
    exec (.rstep4 t) s = .next (s.withCore (s.core.roundStep mixParity k4 t)) := by
  simp only [exec, execRstep4, decide_eq_true h, State.microOp_of_inRange (show t < 256 by omega)]

theorem exec_fin (s : State) : exec .fin s = .next (s.withCore s.core.fin) := rfl

end Sys2Proof.Machine
end

