-- ==== Sys2Proof/Laws/Driver.lean ====
section
/-! SUPPORT. The host's routines: what joining two of them does, what one command and one sequencer turn do, and the two bits
of the status word that `WAIT` tests. -/

namespace Sys2Proof.Machine.Driver

-- One thread at a time: many small theorems at once would each wait on a thread of its own.
set_option Elab.async false

variable {α β : Type} {p : Routine α} {f : α → Routine β} {s t : State}

/-! ## Joining routines -/

@[simp] theorem give_apply (v : α) (s : State) : give v s = (.value v, s) := rfl
@[simp] theorem returnInvalidData_apply (s : State) : (returnInvalidData s : Answer α × State) = (.invalidData, s) := rfl

theorem andThen_of_value {v : α} (h : p s = (.value v, t)) : andThen p f s = f v t := by simp only [andThen, h]
theorem andThen_of_invalidData (h : p s = (.invalidData, t)) : andThen p f s = (.invalidData, t) := by
  simp only [andThen, h]
theorem andThen_of_waiting (h : p s = (.waiting, t)) : andThen p f s = (.waiting, t) := by simp only [andThen, h]
theorem andThen_of_stopped (h : p s = (.stopped, t)) : andThen p f s = (.stopped, t) := by simp only [andThen, h]

/-- A joined routine returns a value only through a value of its first part. -/
theorem andThen_eq_value {w : β} :
    andThen p f s = (.value w, t) ↔ ∃ v u, p s = (.value v, u) ∧ f v u = (.value w, t) := by
  unfold andThen
  split <;> simp_all

@[simp] theorem issueAll_nil (s : State) : issueAll [] s = (.value [], s) := rfl
theorem issueAll_cons {i : Instr} {is : List Instr} {r : Reply} (h : issue i s = (.value r, t)) :
    issueAll (i :: is) s = andThen (issueAll is) (fun rs => give (r :: rs)) t := andThen_of_value h
@[simp] theorem sequencerTurns_zero (s : State) : sequencerTurns 0 s = (.value (), s) := rfl
@[simp] theorem wait_nil (s : State) : wait [] s = (.waiting, s) := rfl
@[simp] theorem onNormalized_none (commands : List Byte → Routine (List Byte)) (s : State) :
    onNormalized none commands s = (.invalidData, s) := rfl
@[simp] theorem onNormalized_some (n : List Byte) (commands : List Byte → Routine (List Byte)) :
    onNormalized (some n) commands = commands n := rfl

/-! ## One turn and one command -/

/-- What one turn does: the machine's step on it, or nothing when the machine stops. -/
theorem takeNow_cases (turn : Turn) (s : State) :
    (∃ t, step { s with turns := turn :: s.turns } = .next t ∧ takeNow turn s = (.value (), t)) ∨
    ((∀ t, step { s with turns := turn :: s.turns } ≠ .next t) ∧ takeNow turn s = (.stopped, s)) := by
  unfold takeNow
  split
  · exact .inl ⟨_, by assumption, rfl⟩
  · exact .inr ⟨fun t h => by simp_all, rfl⟩
  · exact .inr ⟨fun t h => by simp_all, rfl⟩

/-- A turn that goes on, as a run of the machine of one step. -/
theorem run_of_takeNow {turn : Turn} (h : takeNow turn s = (.value (), t)) :
    Host.Core.run core 1 { s with turns := turn :: s.turns } = .next t := by
  rcases takeNow_cases turn s with ⟨u, hu, h'⟩ | ⟨-, h'⟩ <;> rw [h] at h'
  · cases h'
    have hc : core.step { s with turns := turn :: s.turns } = .next t := hu
    simp only [Host.Core.run, hc]
  · cases h'

/-- A command the core takes: its response is the newest one of the state its meaning gives. -/
theorem issue_of_exec {i : Instr} {r : Reply} {rest : List Reply} (hd : decodeFrame (commandFrame i) = .instr i)
    (he : exec i s = .next t) (hr : t.responses = r :: rest) : issue i s = (.value r, t) := by
  have hf : State.fetch { s with turns := send i :: s.turns } = .run i := by
    simp only [State.fetch, State.nextTurn, send, fetchCommand, hd]
  have hs : step { s with turns := send i :: s.turns } = .next t := by
    simp only [step, hf, State.takeTurn, List.tail_cons]
    exact he
  unfold issue
  rw [andThen_of_value (v := ()) (t := t) (by simp only [takeNow, hs])]
  simp only [newestReply, hr]

theorem issue_stat (s : State) :
    issue .stat s = (.value (reply .ok s.core.statusWord), s.respond .ok s.core.statusWord) :=
  issue_of_exec (by decide +kernel) (exec_stat s) rfl

theorem issue_clr (s : State) : issue .clr s = (.value (reply .ok 0), s.clear.respond .ok 0) :=
  issue_of_exec (by decide +kernel) (exec_clr s) rfl

/-! ## The bits `WAIT` tests -/

@[simp] theorem doneBit_statusWord (c : CoreState) : doneBit c.statusWord = c.done := by
  simp only [doneBit, CoreState.statusWord, BitVec.getLsbD_setWidth, BitVec.getLsbD_append]
  simp

@[simp] theorem errBit_statusWord (c : CoreState) : errBit c.statusWord = c.err := by
  simp only [errBit, CoreState.statusWord, BitVec.getLsbD_setWidth, BitVec.getLsbD_append]
  simp

/-- One round of `WAIT`: after the sequencer's turns it ends when the core is in `DONE` or `ERROR`, and goes on otherwise
(R93). -/
theorem wait_cons {g : Nat} {gaps : List Nat} (h : sequencerTurns g s = (.value (), t)) :
    wait (g :: gaps) s =
      if t.core.done || t.core.err then (.value t.core.statusWord, t.respond .ok t.core.statusWord)
      else wait gaps (t.respond .ok t.core.statusWord) := by
  rw [wait, andThen_of_value h, andThen_of_value (issue_stat t)]
  simp only [replyData_reply, doneBit_statusWord, errBit_statusWord]
  split <;> simp_all

end Sys2Proof.Machine.Driver
end

