-- ==== Sys2Proof/Laws/Normalizer.lean ====
section
/-! SUPPORT. Case mapping below 0x80 and the functions on texts that act on it character by character. -/

namespace Sys2Proof.Machine.Normalizer

-- One thread at a time: many small theorems at once would each wait on a thread of its own.
set_option Elab.async false

/-- A text function given character by character acts on the characters below 0x80 as its character function does. -/
theorem actsOnAscii_map {f g : Char → Char} (h : ∀ c, c.toNat < 0x80 → g c = f c) : ActsOnAscii f (fun s => s.map g) := by
  refine fun s => ⟨s.map fun c => [g c], ?_, ?_⟩
  · induction s <;> simp_all
  · induction s with
    | nil => exact .nil
    | cons c s ih => exact .cons (fun hc => congrArg (fun x => [x]) (h c hc)) ih

/-- A lowercased letter lies 32 code points higher. -/
theorem toNat_asciiLower (c : Char) :
    (asciiLower c).toNat = if 0x41 ≤ c.toNat ∧ c.toNat ≤ 0x5A then c.toNat + 32 else c.toNat := by
  unfold asciiLower
  split
  case isTrue hc => rw [Char.toNat_ofNat, if_pos (.inl (by omega))]
  case isFalse hc => rfl

/-- An uppercased letter lies 32 code points lower. -/
theorem toNat_asciiUpper (c : Char) :
    (asciiUpper c).toNat = if 0x61 ≤ c.toNat ∧ c.toNat ≤ 0x7A then c.toNat - 32 else c.toNat := by
  unfold asciiUpper
  split
  case isTrue hc => rw [Char.toNat_ofNat, if_pos (.inl (by omega))]
  case isFalse hc => rfl

@[simp] theorem asciiLower_asciiLower (c : Char) : asciiLower (asciiLower c) = asciiLower c := by
  apply Char.toNat_inj.1
  rw [toNat_asciiLower, toNat_asciiLower]
  split_ifs <;> omega

@[simp] theorem asciiLower_asciiUpper (c : Char) : asciiLower (asciiUpper c) = asciiLower c := by
  apply Char.toNat_inj.1
  rw [toNat_asciiLower, toNat_asciiUpper, toNat_asciiLower]
  split_ifs <;> omega

end Sys2Proof.Machine.Normalizer
end

