-- ==== Sys2Proof/Laws/PerInstr.lean ====
section
/-! SUPPORT. Statements about every instruction as syntax, one lemma per constructor. The family OpcodeField: the encoder puts
into each word the opcode its row has in spec/30_encoding.md R74 (`OP`, with `RSV = 0`) or R78 (`PH`). -/

namespace Sys2Proof.Laws

-- One thread at a time: many small theorems at once would each wait on a thread of its own.
set_option Elab.async false

/-- The opcode of a row: `OP` of a command (R74), `PH` of a micro-operation (R78). -/
def rowOpcode : Instr → Nat
  | .nop => 0
  | .clr => 1
  | .pushb _ => 2
  | .pushw _ => 3
  | .start => 4
  | .stat => 5
  | .rdb _ => 6
  | .rdw _ => 7
  | .rdh _ => 8
  | .xstep _ => 1
  | .hinit => 2
  | .rstep1 _ => 3
  | .rstep2 _ => 3
  | .rstep3 _ => 3
  | .rstep4 _ => 3
  | .fin => 4

namespace OpcodeField

/-- The word of the instruction carries its row's opcode, in a frame for a command, in a sequencer word otherwise. -/
def Statement (i : Instr) : Prop :=
  match encode i with
  | .frame c => i.isCommand = true ∧ frameRsv c = 0 ∧ (frameOp c).toNat = rowOpcode i
  | .seq q => i.isCommand = false ∧ (q.extractLsb' 7 3).toNat = rowOpcode i

theorem nop : Statement .nop := by
  simp [Statement, encode, Instr.isCommand, rowOpcode]

theorem clr : Statement .clr := by
  simp [Statement, encode, Instr.isCommand, rowOpcode]

theorem pushb (b : Byte) : Statement (.pushb b) := by
  simp [Statement, encode, Instr.isCommand, rowOpcode]

theorem pushw (w : Word) : Statement (.pushw w) := by
  simp [Statement, encode, Instr.isCommand, rowOpcode]

theorem start : Statement .start := by
  simp [Statement, encode, Instr.isCommand, rowOpcode]

theorem stat : Statement .stat := by
  simp [Statement, encode, Instr.isCommand, rowOpcode]

theorem rdb (k : Nat) : Statement (.rdb k) := by
  simp [Statement, encode, Instr.isCommand, rowOpcode]

theorem rdw (k : Nat) : Statement (.rdw k) := by
  simp [Statement, encode, Instr.isCommand, rowOpcode]

theorem rdh (k : Nat) : Statement (.rdh k) := by
  simp [Statement, encode, Instr.isCommand, rowOpcode]

theorem xstep (i : Nat) : Statement (.xstep i) := by
  simp [Statement, encode, Instr.isCommand, rowOpcode]

theorem hinit : Statement .hinit := by
  simp [Statement, encode, Instr.isCommand, rowOpcode]

theorem rstep1 (t : Nat) : Statement (.rstep1 t) := by
  simp [Statement, encode, Instr.isCommand, rowOpcode]

theorem rstep2 (t : Nat) : Statement (.rstep2 t) := by
  simp [Statement, encode, Instr.isCommand, rowOpcode]

theorem rstep3 (t : Nat) : Statement (.rstep3 t) := by
  simp [Statement, encode, Instr.isCommand, rowOpcode]

theorem rstep4 (t : Nat) : Statement (.rstep4 t) := by
  simp [Statement, encode, Instr.isCommand, rowOpcode]

theorem fin : Statement .fin := by
  simp [Statement, encode, Instr.isCommand, rowOpcode]

end OpcodeField

end Sys2Proof.Laws
end

