-- ==== Sys2Proof/Tests/Slice0.lean ====
section
/-! SUPPORT. Tests. The expected values are those of spec/95_test_vectors.md (V rows) and of the tables of
spec/30_encoding.md, written out by hand; then, for every statement with hypotheses, a witness that meets them. -/

open Sys2Proof Sys2Proof.Machine

namespace Sys2Proof.Tests

-- One thread at a time: many small theorems at once would each wait on a thread of its own.
set_option Elab.async false

/-! ## Ill-formed instructions are refused by the check -/

theorem test_wf_rdb : (Instr.rdb 20).wellFormed = false ∧ (Instr.rdb 19).wellFormed = true := by decide
theorem test_wf_rdw : (Instr.rdw 5).wellFormed = false ∧ (Instr.rdw 4).wellFormed = true := by decide
theorem test_wf_rdh : (Instr.rdh 40).wellFormed = false ∧ (Instr.rdh 39).wellFormed = true := by decide
theorem test_wf_xstep : (Instr.xstep 64).wellFormed = false ∧ (Instr.xstep 63).wellFormed = true := by decide
theorem test_wf_rstep1 : (Instr.rstep1 20).wellFormed = false ∧ (Instr.rstep1 19).wellFormed = true := by decide
theorem test_wf_rstep2 : (Instr.rstep2 19).wellFormed = false ∧ (Instr.rstep2 40).wellFormed = false := by decide
theorem test_wf_rstep3 : (Instr.rstep3 39).wellFormed = false ∧ (Instr.rstep3 60).wellFormed = false := by decide
theorem test_wf_rstep4 : (Instr.rstep4 59).wellFormed = false ∧ (Instr.rstep4 80).wellFormed = false := by decide

/-! ## Decoding: words written out from R74, R78 and the edge frames of spec/95 section 2.9 -/

theorem test_decode_nop : decodeFrame 0x000000000000 = .instr .nop := by decide +kernel
theorem test_decode_clr : decodeFrame 0x100000000000 = .instr .clr := by decide +kernel
theorem test_decode_pushb : decodeFrame 0x2000000000ff = .instr (.pushb 0xff) := by decide +kernel
theorem test_decode_pushw : decodeFrame 0x300034333231 = .instr (.pushw 0x34333231) := by decide +kernel
theorem test_decode_start : decodeFrame 0x400000000000 = .instr .start := by decide +kernel
theorem test_decode_stat : decodeFrame 0x500000000000 = .instr .stat := by decide +kernel
theorem test_decode_rdb : decodeFrame 0x601300000000 = .instr (.rdb 19) := by decide +kernel
theorem test_decode_rdw : decodeFrame 0x700400000000 = .instr (.rdw 4) := by decide +kernel
theorem test_decode_rdh : decodeFrame 0x802700000000 = .instr (.rdh 39) := by decide +kernel
theorem test_decode_xstep : decodeSeq 0b0010111111 = .instr (.xstep 63) := by decide +kernel
theorem test_decode_hinit : decodeSeq 0b0100000000 = .instr .hinit := by decide +kernel
theorem test_decode_rstep1 : decodeSeq 0b0110010011 = .instr (.rstep1 19) := by decide +kernel
theorem test_decode_rstep2 : decodeSeq 0b0110010100 = .instr (.rstep2 20) := by decide +kernel
theorem test_decode_rstep3 : decodeSeq 0b0110111011 = .instr (.rstep3 59) := by decide +kernel
theorem test_decode_rstep4 : decodeSeq 0b0111001111 = .instr (.rstep4 79) := by decide +kernel
theorem test_decode_fin : decodeSeq 0b1000000000 = .instr .fin := by decide +kernel

/-- V140 to V155: every one is illegal, for the reason its row gives. -/
theorem test_decode_illegal :
    decodeFrame 0x900000000000 = .rejected .reservedOpcode ∧ decodeFrame 0x010000000000 = .rejected .reservedField ∧
    decodeFrame 0x000100000000 = .rejected .operandNotAllowed ∧ decodeFrame 0x200000000100 = .rejected .pushbOperand ∧
    decodeFrame 0x300100000000 = .rejected .pushwIndex ∧ decodeFrame 0x600000000001 = .rejected .readData ∧
    decodeFrame 0x601400000000 = .rejected .indexRange ∧ decodeFrame 0x700500000000 = .rejected .indexRange ∧
    decodeFrame 0x802800000000 = .rejected .indexRange := by decide +kernel

/-- R78, last row, and R79. -/
theorem test_decode_no_micro_operation :
    decodeSeq 0x280 = .rejected .noMicroOp ∧ decodeSeq 0x0C0 = .rejected .unreachedSequencerWord ∧
    decodeSeq 0x1D0 = .rejected .unreachedSequencerWord ∧ decodeSeq 0x380 = .rejected .unreachedSequencerWord := by
  decide +kernel

/-- R101: an overlong form, a surrogate, a number above U+10FFFF, a cut sequence. -/
theorem test_decode_utf8_ill_formed : Normalizer.decodeUtf8 [0xC0, 0x80] = none ∧ Normalizer.decodeUtf8 [0xED, 0xA0, 0x80] = none ∧
    Normalizer.decodeUtf8 [0xF4, 0x90, 0x80, 0x80] = none ∧ Normalizer.decodeUtf8 [0xE2, 0x82] = none := by decide +kernel

/-! ## Helpers -/

/-- The core after a step that goes on. -/
def coreOf : Host.Outcome State Fault Refusal → Option CoreState
  | .next s => some s.core
  | .fault _ => none
  | .refused _ => none

/-- The newest response after a step that goes on. -/
def replyOf : Host.Outcome State Fault Refusal → Option Reply
  | .next s => s.responses.head?
  | .fault _ => none
  | .refused _ => none

/-- A core at a phase and a step, everything else as after reset. -/
def coreAt (ph : Phase) (cnt : BitVec 7) : CoreState := { CoreState.reset with ph := ph, cnt := cnt }

/-- A machine with this core, and nothing waiting. -/
def machine (c : CoreState) : State := { State.reset with core := c }

/-- In `IDLE` with a length. -/
def loaded (len : BitVec 11) : CoreState := { CoreState.reset with len := len }

/-- One byte `a` loaded, in `IDLE`. -/
def idleCore : CoreState := { loaded 1 with buf := [(0, 0x61)] }

/-- In `DONE` with the digest of V1. -/
def doneCore : CoreState :=
  { coreAt .done 0 with len := 5, a := 0x460e0af6, b := 0xc1828a93, c := 0xfe887cbe, d := 0x103d6ca6, e := 0xab97a0e4 }

/-- In `ERROR` after an overflow. -/
def errorCore : CoreState := { coreAt .error 0 with len := 1024, ecause := .overflow }

/-- In `ROUND` before a round, with the accumulators of V99 to V106 and `W[t] = 1`. -/
def roundCore (t : Nat) : CoreState :=
  { coreAt .round (BitVec.ofNat 7 t) with
    buf := [(4 * t, 0x01)]
    a := 0x80000001, b := 0xf0f0f0f0, c := 0xaaaaaaaa, d := 0x55555555, e := 0x7fffffff }

/-- The accumulators after a step that goes on. -/
def accsOf (o : Host.Outcome State Fault Refusal) : Option (List Word) := (coreOf o).map CoreState.digestWords

/-! ## Commands -/

theorem test_nop_in_error : replyOf (exec .nop (machine errorCore)) = some 0x0000000000 := by decide +kernel
theorem test_clr_in_done : coreOf (exec .clr (machine doneCore)) = some CoreState.reset := by decide +kernel
theorem test_clr_aborts_a_run : coreOf (exec .clr (machine (roundCore 35))) = some CoreState.reset := by decide +kernel
/-- V44. -/
theorem test_pushb_last_byte : (coreOf (exec (.pushb 0x7a) (machine (loaded 1023)))).map (fun c => (c.len, c.buf)) =
    some (1024, [(1023, 0x7a)]) := by decide +kernel
/-- V45. -/
theorem test_pushb_overflow : coreOf (exec (.pushb 0x7a) (machine (loaded 1024))) =
    some { loaded 1024 with ph := .error, ecause := .overflow } := by decide +kernel
/-- V42. -/
theorem test_pushw_unaligned :
    (coreOf (exec (.pushw 0x44434241) (machine { loaded 1 with buf := [(0, 0x31)] }))).map
      (fun c => (c.buf.word 0, c.buf.word 1)) = some (0x43424131, 0x00000044) := by decide +kernel
/-- V47. -/
theorem test_pushw_overflow : coreOf (exec (.pushw 0x04030201) (machine (loaded 1021))) =
    some { loaded 1021 with ph := .error, ecause := .overflow } := by decide +kernel
/-- V50. -/
theorem test_start_empty : coreOf (exec .start (machine (loaded 0))) = some { loaded 0 with ph := .error, ecause := .empty } := by
  decide +kernel
/-- V51. -/
theorem test_start_one_byte : coreOf (exec .start (machine (loaded 1))) = some { loaded 1 with ph := .expand } := by
  decide +kernel
/-- V68. -/
theorem test_stat_error : replyOf (exec .stat (machine errorCore)) = some 0x0000040024 := by decide +kernel
/-- V65. -/
theorem test_stat_busy : replyOf (exec .stat (machine { coreAt .final 0 with len := 5 })) = some 0x0000000501 := by
  decide +kernel
/-- V121. -/
theorem test_rdb_3 : replyOf (exec (.rdb 3) (machine doneCore)) = some 0x00000000f6 := by decide +kernel
/-- V133. -/
theorem test_rdb_refused : replyOf (exec (.rdb 0) (machine (loaded 5))) = some 0x0200000000 := by decide +kernel
/-- V125. -/
theorem test_rdw_4 : replyOf (exec (.rdw 4) (machine doneCore)) = some 0x00ab97a0e4 := by decide +kernel
/-- V129. -/
theorem test_rdh_3 : replyOf (exec (.rdh 3) (machine doneCore)) = some 0x0000000065 := by decide +kernel
/-- V131. -/
theorem test_rdh_8 : replyOf (exec (.rdh 8) (machine doneCore)) = some 0x0000000063 := by decide +kernel

/-! ## Micro-operations -/

/-- V86: `i = 0`, so `W[16]` is written. -/
theorem test_xstep_shift_25 :
    (coreOf (exec (.xstep 0) (machine { coreAt .expand 0 with
      buf := (((Memory.writeWord [] 0 0xdeadbeef).writeWord 2 0xcafebabe).writeWord 8 0x12345678).writeWord 13 0x9abcdef0 }))).map
      (fun c => c.buf.word 16) = some 0x02000000 := by decide +kernel
/-- V82 and V56: the bits above the low five are masked, and step 63 leads to `INIT`. -/
theorem test_xstep_63 :
    (coreOf (exec (.xstep 63) (machine { coreAt .expand 63 with buf := Memory.writeWord [] 63 0xffffffe0 }))).map
      (fun c => (c.buf.word 79, c.ph, c.cnt)) = some (0x00000001, .init, 0) := by decide +kernel
/-- V90. -/
theorem test_hinit : accsOf (exec .hinit (machine (coreAt .init 0))) =
    some [0x67452301, 0xefcdab89, 0x98badcfe, 0x10325476, 0xc3d2e1f0] := by decide +kernel
/-- V99. -/
theorem test_rstep1 : accsOf (exec (.rstep1 5) (machine (roundCore 5))) =
    some [0x80281f6e, 0x80000001, 0x3c3c3c3c, 0xaaaaaaaa, 0x55555555] := by decide +kernel
/-- V100. -/
theorem test_rstep2 : accsOf (exec (.rstep2 25) (machine (roundCore 25))) =
    some [0xfde8fae0, 0x80000001, 0x3c3c3c3c, 0xaaaaaaaa, 0x55555555] := by decide +kernel
/-- V101. -/
theorem test_rstep3 : accsOf (exec (.rstep3 45) (machine (roundCore 45))) =
    some [0x000cadfc, 0x80000001, 0x3c3c3c3c, 0xaaaaaaaa, 0x55555555] := by decide +kernel
/-- V106 and V59. -/
theorem test_rstep4 : (coreOf (exec (.rstep4 79) (machine (roundCore 79)))).map (fun c => (c.a, c.ph, c.cnt)) =
    some (0x5971d115, .final, 0) := by decide +kernel
/-- V113. -/
theorem test_fin : accsOf (exec .fin (machine { coreAt .final 0 with
      a := 0xdec8e7f5, b := 0xd1b4df0a, c := 0x65cd9fc0, d := 0x000b1830, e := 0xe7c4bef4 })) =
    some [0x460e0af6, 0xc1828a93, 0xfe887cbe, 0x103d6ca6, 0xab97a0e4] := by decide +kernel

/-! ## The step and the word operators -/

/-- A command frame of the opcode table placed in front is the next step. -/
theorem test_step_command : (coreOf (step (State.reset.withFetchWord 48 0x200000000031))).map (fun c => (c.len, c.buf)) =
    some (1, [(0, 0x31)]) := by decide +kernel
/-- A sequencer word of the opcode table placed in `(PH, CNT)` is the next step. -/
theorem test_step_micro_operation : (coreOf (step (State.reset.withFetchWord 16 0x200))).map (fun c => (c.ph, c.a)) =
    some (.done, 0x67452301) := by decide +kernel
/-- V140: an illegal frame. -/
theorem test_step_illegal : replyOf (step (State.reset.withFetchWord 48 0x900000000000)) = some 0x0300000000 := by
  decide +kernel
/-- V61. -/
theorem test_step_no_step : coreOf (step State.reset) = some CoreState.reset := by decide +kernel
/-- R250. -/
theorem test_step_reset : coreOf (step { machine doneCore with turns := [.reset] }) = some CoreState.reset := by
  decide +kernel
/-- V20 to V29. -/
theorem test_rol32 : rol32 0x00000001 0 = 0x00000001 ∧ rol32 0x80000000 1 = 0x00000001 ∧ rol32 0x67452301 5 = 0xe8a4602c ∧
    rol32 0xefcdab89 30 = 0x7bf36ae2 ∧ rol32 0x80000001 31 = 0xc0000000 := by decide +kernel
/-- R101: the examples of the rule. -/
theorem test_decode_utf8 : Normalizer.decodeUtf8 [0x31, 0x32, 0x33, 0x34, 0x35] = some ['1', '2', '3', '4', '5'] ∧
    Normalizer.decodeUtf8 [0xff] = none := by decide +kernel

/-! ## Host routines -/

/-- R93 and the `WAIT` of programs P1 and P2: in `DONE` the first `STAT` ends it, with the status word of V66. -/
theorem test_wait_done : (Driver.wait [0, 0] (machine doneCore)).1 = .value 0x00000502 := by decide +kernel
/-- In `ERROR` too (V68); in `IDLE` it goes on. -/
theorem test_wait_error_idle : (Driver.wait [0] (machine errorCore)).1 = .value 0x00040024 ∧
    (Driver.wait [0, 3] (machine idleCore)).1 = .waiting := by decide +kernel
/-- R90, R105: bytes that are no UTF-8 never reach the core. -/
theorem test_hashB_invalid : Driver.hashB (fun s => s.map Normalizer.asciiLower) [146] [0xff] (machine doneCore) =
    (.invalidData, machine doneCore) := by decide +kernel
/-- R104, program P3: a host that skips the length check gets `InvalidData` from `START`. -/
theorem test_commands_empty : (Driver.hashCommands [] [146] [] (machine idleCore)).1 = .invalidData := by decide +kernel

/-! ## Witnesses: for every statement with hypotheses a concrete input that meets them -/

/-- The core after the 64 expansion steps on one zero byte. -/
def expandedCore : CoreState := (List.range 64).foldl (fun c i => c.xstep i) { coreAt .expand 0 with len := 1 }

theorem idleCore_inv : idleCore.Inv where
  pair := by decide
  lenBound := by decide
  bufWf := by decide
  idleTail := fun _ k hk => by
    have h1 : ¬ 0 = k := fun h => by subst h; revert hk; decide
    simp [idleCore, Memory.byte, h1]
  loaded := by decide
  cause := by decide
  expanding := fun h => nomatch h
  expanded := fun h => by rcases h with h | h | h | h <;> cases h

theorem expandedCore_inv : expandedCore.Inv where
  pair := by decide +kernel
  lenBound := by decide +kernel
  bufWf := by decide +kernel
  idleTail := fun h => absurd h (by decide +kernel)
  loaded := by decide +kernel
  cause := by decide +kernel
  expanding := fun h => absurd h (by decide +kernel)
  expanded := fun _ => show ∀ j, j < 64 → _ from by decide +kernel

theorem witness_DecodeOfEncodeIsTheInstruction : (Instr.rdh 39).wellFormed = true ∧ (Instr.xstep 63).wellFormed = true := by decide
theorem witness_DecodedWordIsTheEncoding :
    decode (.frame 0x2000000000ff) = .instr (.pushb 0xff) ∧ decode (.seq 0x1CF) = .instr (.rstep4 79) := by decide +kernel
/-- One frame for each of the seven items, and a legal one. -/
theorem witness_IllegalFramesAreTheSevenItems :
    (0x010000000000 / 2 ^ 40 % 16 ≠ 0) ∧ (9 ≤ 0x900000000000 / 2 ^ 44) ∧
    (0x100000000001 / 2 ^ 44 = 1 ∧ 0x100000000001 % 2 ^ 32 ≠ 0) ∧
    (0x200000000100 / 2 ^ 44 = 2 ∧ 0x200000000100 % 2 ^ 32 / 2 ^ 8 ≠ 0) ∧
    (0x300100000000 / 2 ^ 44 = 3 ∧ 0x300100000000 / 2 ^ 32 % 256 ≠ 0) ∧
    (0x600000000001 / 2 ^ 44 = 6 ∧ 0x600000000001 % 2 ^ 32 ≠ 0) ∧
    (0x601400000000 / 2 ^ 44 = 6 ∧ 20 ≤ 0x601400000000 / 2 ^ 32 % 256) ∧
    (0x700500000000 / 2 ^ 44 = 7 ∧ 5 ≤ 0x700500000000 / 2 ^ 32 % 256) ∧
    (0x802800000000 / 2 ^ 44 = 8 ∧ 40 ≤ 0x802800000000 / 2 ^ 32 % 256) ∧
    (∃ i, decodeFrame 0x601300000000 = .instr i) ∧
    ({ State.reset with turns := [.command 0x900000000000] } : State).turns = .command 0x900000000000 :: [] :=
  ⟨by decide, by decide, by decide, by decide, by decide, by decide, by decide, by decide, by decide,
    ⟨.rdb 19, by decide +kernel⟩, rfl⟩
theorem witness_FramePatternsOfTheCommands : 19 < 20 ∧ 4 < 5 ∧ 39 < 40 := by decide
theorem witness_StepRunsTheDecodedCommand :
    ({ State.reset with turns := [.command 0x500000000000] } : State).turns = .command 0x500000000000 :: [] ∧
    decodeFrame 0x500000000000 = .instr .stat := ⟨rfl, by decide +kernel⟩
theorem witness_StepRunsTheSelectedMicroOperation :
    (machine (roundCore 20)).sequencerNext ∧ decodeSeq (roundCore 20).seqWord = .instr (.rstep2 20) :=
  ⟨.inl rfl, by decide +kernel⟩
/-- Each row of the table at the ends of its range; the turn waiting in the list as well as the empty list. -/
theorem witness_SequencerStepFollowsItsTable :
    (machine (coreAt .expand 0)).sequencerNext ∧
    ({ machine (coreAt .expand 62) with turns := [.sequencer] } : State).sequencerNext ∧
    (coreAt .expand 0).at .expand 0 ∧ (coreAt .expand 62).at .expand 62 ∧ (coreAt .expand 63).at .expand 63 ∧
    (coreAt .init 0).at .init 0 ∧ (coreAt .round 0).at .round 0 ∧ (coreAt .round 78).at .round 78 ∧
    (coreAt .round 79).at .round 79 ∧ (coreAt .final 0).at .final 0 ∧ (coreAt .idle 0).at .idle 0 ∧
    (coreAt .done 0).at .done 0 ∧ (coreAt .error 0).at .error 0 :=
  ⟨.inl rfl, .inr ⟨[], rfl⟩, by decide, by decide, by decide, by decide, by decide, by decide, by decide, by decide,
    by decide, by decide, by decide⟩
theorem witness_UnreachedSequencerWordIsStuck :
    (coreAt .expand 64).pairLegal = false ∧ (coreAt .idle 5).pairLegal = false ∧ (coreAt .unreached 0).pairLegal = false ∧
    (machine (coreAt .expand 64)).sequencerNext ∧
    (Instr.rdb 19).wellFormed = true ∧ (Instr.rdb 19).isCommand = true ∧ Instr.rdb 19 ≠ .clr ∧ Instr.rdb 19 ≠ .nop ∧
    Instr.rdb 19 ≠ .stat :=
  ⟨by decide, by decide, by decide, .inl rfl, by decide, by decide, by decide, by decide, by decide⟩
theorem witness_ResetGivesTheResetValues :
    ({ machine doneCore with turns := [.reset] } : State).turns = .reset :: [] := rfl
/-- The premises of the phase gate: in `ERROR`, and in a phase that is neither `ERROR` nor the one needed. -/
theorem witness_GatedBy :
    errorCore.pairLegal = true ∧ errorCore.ph = .error ∧
    doneCore.pairLegal = true ∧ doneCore.ph ≠ .error ∧ doneCore.ph ≠ .idle ∧
    idleCore.pairLegal = true ∧ idleCore.ph ≠ .error ∧ idleCore.ph ≠ .done := by decide
theorem witness_PushbAppendsOneByteOrOverflows :
    (loaded 1023).at .idle 0 ∧ (loaded 1023).buf.wf = true ∧ (loaded 1023).len.toNat ≤ 1023 ∧
    (loaded 1024).at .idle 0 ∧ (loaded 1024).buf.wf = true ∧ 1023 < (loaded 1024).len.toNat := by decide
theorem witness_PushwAppendsFourBytesOrOverflows :
    (loaded 1020).at .idle 0 ∧ (loaded 1020).buf.wf = true ∧ (loaded 1020).len.toNat ≤ 1020 ∧
    (loaded 1021).at .idle 0 ∧ (loaded 1021).buf.wf = true ∧ 1020 < (loaded 1021).len.toNat := by decide
theorem witness_PushwEqualsFourPushb :
    (loaded 1020).at .idle 0 ∧ (loaded 1020).buf.wf = true ∧ (loaded 1020).len.toNat ≤ 1020 ∧
    4 ∣ (loaded 1020).len.toNat := by decide
theorem witness_StartBeginsTheRunOrRaisesEmpty :
    (loaded 1).at .idle 0 ∧ (loaded 1).len ≠ 0 ∧ (loaded 0).at .idle 0 ∧ (loaded 0).len = 0 := by decide
theorem witness_RdbReadsTheDigestByte : 19 < 20 ∧ doneCore.at .done 0 := by decide
theorem witness_RdwReadsTheDigestWord : 4 < 5 ∧ doneCore.at .done 0 := by decide
theorem witness_RdhReadsTheHexCharacter : 39 < 40 ∧ doneCore.at .done 0 := by decide
theorem witness_OutputIsReadOnlyInDone : (Instr.rdb 20 = .rdb 20) ∧ errorCore.ph ≠ .done ∧ idleCore.ph ≠ .done := by decide
theorem witness_XstepWritesTheExpandedWord : 0 < 64 ∧ 63 < 64 ∧ idleCore.buf.wf = true := by decide
theorem witness_RstepRanges : 19 < 20 ∧ (20 ≤ 39 ∧ 39 < 40) ∧ (40 ≤ 59 ∧ 59 < 60) ∧ (60 ≤ 79 ∧ 79 < 80) := by decide
theorem witness_InternalAccessErrorIsRaisedAndUnreachable :
    (Instr.xstep 240 = .xstep 240 ∧ 255 < 240 + 16) ∧ (Instr.rstep4 256 = .rstep4 256 ∧ 255 < 256) ∧
    decodeSeq 0x0BF = .instr (.xstep 63) ∧ decodeSeq 0x1CF = .instr (.rstep4 79) := by decide +kernel
theorem witness_BusyStepNeverRaisesAnError :
    (roundCore 79).pairLegal = true ∧ (roundCore 79).busy = true ∧ (machine (roundCore 79)).sequencerNext :=
  ⟨by decide, by decide, .inl rfl⟩
theorem witness_RunHasExactly146MicroOperations :
    (machine (coreAt .expand 0)).core.at .expand 0 ∧ (machine (coreAt .expand 0)).turns = [] ∧ 146 ≤ 146 := by decide
theorem witness_WordViewIsLittleEndian : 255 < 256 ∧ Memory.wf [(1023, 0x7a)] = true := by decide
theorem witness_BuffersThatReadAlikeAreEqual :
    Memory.wf [(0, 0x61), (1023, 0x7a)] = true ∧
    ∀ x, x < 1024 → Memory.byte [(0, 0x61), (1023, 0x7a)] x = Memory.byte [(0, 0x61), (1023, 0x7a)] x :=
  ⟨by decide, fun _ _ => rfl⟩
theorem witness_WordOperatorsAreTheSpecsArithmetic : 1 ≤ 31 ∧ 31 ≤ 31 := by decide
theorem witness_MixingFunctionsBitByBit : 31 < 32 := by decide
theorem witness_EveryStepKeepsTheInvariant :
    (machine idleCore).Inv ∧ ∃ t, step (machine idleCore) = .next t := by
  refine ⟨⟨idleCore_inv, fun r hr => ?_⟩, machine idleCore, rfl⟩
  cases hr
theorem witness_ExpandedWordsArePowersOfTwo : expandedCore.Inv ∧ expandedCore.afterExpansion ∧ 16 ≤ 79 ∧ 79 < 80 :=
  ⟨expandedCore_inv, .inl (by decide +kernel), by decide, by decide⟩
theorem witness_ErrorIsLeftOnlyByClrOrReset :
    errorCore.at .error 0 ∧ (Turn.command 0x100000000000).clears = true ∧ (Turn.command 0x400000000000).clears = false := by
  decide +kernel
theorem witness_CommandsOutsideIdleChangeNothing :
    ({ machine doneCore with turns := [.command 0x200000000036] } : State).turns = .command 0x200000000036 :: [] ∧
    doneCore.ph ≠ .idle ∧ decodeFrame 0x200000000036 ≠ .instr .clr := ⟨rfl, by decide, by decide +kernel⟩
/-- Two cores with different buffers, busy phases, steps and accumulators that look the same. -/
theorem witness_HiddenStateDoesNotReachTheResponse :
    (roundCore 5).pairLegal = true ∧ (coreAt .expand 7).pairLegal = true ∧ (roundCore 5).sameView (coreAt .expand 7) ∧
    ({ machine (roundCore 5) with turns := [.command 0x500000000000] } : State).turns = .command 0x500000000000 :: [] :=
  ⟨by decide, by decide, ⟨rfl, rfl, rfl, rfl, rfl, fun h => nomatch h⟩, rfl⟩
/-- Two messages of one byte. -/
theorem witness_MessageIsHiddenUntilDone :
    idleCore.at .idle 0 ∧ (loaded 1).at .idle 0 ∧ idleCore.ecause = (loaded 1).ecause ∧ idleCore.len = (loaded 1).len ∧
    idleCore.buf ≠ (loaded 1).buf ∧ [Turn.command 0x400000000000, .sequencer, .command 0x500000000000].count .sequencer < 146 := by
  decide +kernel
theorem witness_InterleavingDoesNotMatter :
    (coreAt .expand 0).pairLegal = true ∧ (coreAt .expand 0).ph ≠ .idle ∧
    ∀ x ∈ [Turn.sequencer, .command 0x500000000000, .sequencer], x.clears = false := by decide +kernel
theorem witness_RunComputesTheDigest :
    idleCore.Inv ∧ idleCore.ph = .idle ∧ 1 ≤ idleCore.len.toNat ∧
    (∀ x ∈ List.replicate 146 Turn.sequencer, x.clears = false) ∧
    146 ≤ (List.replicate 146 Turn.sequencer).count .sequencer :=
  ⟨idleCore_inv, rfl, by decide, by decide +kernel, by decide +kernel⟩
theorem witness_DigestDependsOnTheFirst64Bytes :
    (1 ≤ (List.replicate 64 (0x61 : Byte)).length ∧ (List.replicate 64 (0x61 : Byte)).length ≤ 1024) ∧
    (List.replicate 65 (0x61 : Byte)).length ≤ 1024 ∧
    ∀ x, x < 64 → (List.replicate 64 (0x61 : Byte)).getD x 0 = (List.replicate 65 (0x61 : Byte)).getD x 0 := by decide +kernel
theorem witness_LoaderContract : (List.replicate 1024 (0 : Byte)).length ≤ 1024 ∧ 1024 < (List.replicate 1025 (0 : Byte)).length := by
  rw [List.length_replicate, List.length_replicate]; decide
theorem witness_WaitRepeatsStatUntilDoneOrErr :
    doneCore.pairLegal = true ∧ errorCore.pairLegal = true ∧ (coreAt .expand 0).pairLegal = true ∧
    (coreAt .expand 0).busy = true ∧ 146 ≤ [100, 40, 6].sum := by decide
theorem witness_CommandsHashAnyBytesOfAdmittedLength :
    (1 ≤ [(0xff : Byte)].length ∧ [(0xff : Byte)].length ≤ 1024) ∧ ([] : List Byte).length = 0 ∧
    146 ≤ [146].sum ∧ [100, 45].sum < 146 := by decide
/-- The normalizer passes a byte string on, and fails on another; the schedules. -/
theorem witness_HashbReturnsTheDigest :
    Normalizer.normalizeBytes (fun s => s.map Normalizer.asciiLower) [0x41] = some [0x61] ∧
    Normalizer.normalizeBytes (fun s => s.map Normalizer.asciiLower) [0xff] = none ∧
    146 ≤ [0, 146].sum ∧ [100, 45].sum < 146 := by decide +kernel
theorem witness_HashsReturnsTheHexDigest :
    Normalizer.normalizeText (fun s => s.map Normalizer.asciiLower) ['A'] = some [0x61] ∧
    Normalizer.normalizeText (fun s => s.map Normalizer.asciiLower) [] = none := by decide +kernel
theorem length_encodeUtf8_replicate (n : Nat) : (Normalizer.encodeUtf8 (List.replicate n 'a')).length = n := by
  induction n with
  | zero => rfl
  | succ n ih =>
    rw [List.replicate_succ, Normalizer.encodeUtf8, List.flatMap_cons, List.length_append]
    rw [Normalizer.encodeUtf8] at ih
    rw [ih, show (Normalizer.encodeChar 'a').length = 1 from rfl, Nat.add_comm]
/-- Lowercased forms of 0, 1, 1024 and 1025 bytes. -/
theorem witness_NormalizedLengthIsAdmitted :
    (Normalizer.encodeUtf8 (List.replicate 0 'a')).length = 0 ∧ (Normalizer.encodeUtf8 (List.replicate 1 'a')).length = 1 ∧
    (Normalizer.encodeUtf8 (List.replicate 1024 'a')).length = 1024 ∧
    1024 < (Normalizer.encodeUtf8 (List.replicate 1025 'a')).length ∧
    Normalizer.normalizeText (fun s => s.map Normalizer.asciiLower) ['A'] = some [0x61] :=
  ⟨length_encodeUtf8_replicate 0, length_encodeUtf8_replicate 1, length_encodeUtf8_replicate 1024,
    by rw [length_encodeUtf8_replicate]; decide, by decide +kernel⟩
/-- A text of four byte lengths and its bytes; a byte string that encodes no text. -/
theorem witness_Utf8DecodingInvertsEncoding :
    Normalizer.decodeUtf8 [0x41, 0xC3, 0xA9, 0xE2, 0x82, 0xAC, 0xF0, 0x9F, 0x98, 0x80] =
      some ['A', 'é', Char.ofNat 0x20AC, Char.ofNat 0x1F600] ∧
    ∀ s, Normalizer.encodeUtf8 s ≠ [0xFF] := by
  refine ⟨by decide +kernel, fun s h => ?_⟩
  cases s with
  | nil => cases h
  | cons c s =>
    have hb : c.toNat < 0xD800 ∨ 0xDFFF < c.toNat ∧ c.toNat < 0x110000 := c.valid
    have h0 := congrArg (fun l : List Byte => (l.headD 0).toNat) h
    simp only [Normalizer.encodeUtf8, List.flatMap_cons, Normalizer.encodeChar] at h0
    split_ifs at h0 <;> simp at h0 <;> omega

/-- A `LOWER` and an uppercasing function that also know one letter above 0x80. -/
def lowerChar (c : Char) : Char := if c = 'É' then 'é' else Normalizer.asciiLower c
def upperChar (c : Char) : Char := if c = 'é' then 'É' else Normalizer.asciiUpper c

theorem lowerChar_lowerChar (c : Char) : lowerChar (lowerChar c) = lowerChar c := by
  unfold lowerChar
  by_cases h : c = 'É'
  · subst h; decide +kernel
  · have h' : Normalizer.asciiLower c ≠ 'É' := fun he => by
      have hn := congrArg Char.toNat he
      have hc : c.toNat ≠ 0xC9 := fun hc => h (Char.toNat_inj.1 hc)
      rw [Normalizer.toNat_asciiLower, show 'É'.toNat = 0xC9 from rfl] at hn
      split_ifs at hn <;> omega
    rw [if_neg h, if_neg h', Normalizer.asciiLower_asciiLower]

theorem lowerChar_upperChar (c : Char) : lowerChar (upperChar c) = lowerChar c := by
  unfold lowerChar upperChar
  by_cases h : c = 'é'
  · subst h; decide +kernel
  · by_cases h2 : c = 'É'
    · subst h2; decide +kernel
    · have h' : Normalizer.asciiUpper c ≠ 'É' := fun he => by
        have hn := congrArg Char.toNat he
        have hc : c.toNat ≠ 0xC9 := fun hc => h2 (Char.toNat_inj.1 hc)
        rw [Normalizer.toNat_asciiUpper, show 'É'.toNat = 0xC9 from rfl] at hn
        split_ifs at hn <;> omega
      rw [if_neg h, if_neg h', if_neg h2, Normalizer.asciiLower_asciiUpper]

theorem lowerChar_ok : Normalizer.LowerOk (fun s => s.map lowerChar) where
  idempotent s := by
    rw [List.map_map]
    exact List.map_congr_left fun c _ => lowerChar_lowerChar c
  onAscii := Normalizer.actsOnAscii_map fun c hc => if_neg fun h => by subst h; revert hc; decide +kernel

theorem upperChar_ok : Normalizer.UpperOk (fun s => s.map lowerChar) (fun s => s.map upperChar) where
  onAscii := Normalizer.actsOnAscii_map fun c hc => if_neg fun h => by subst h; revert hc; decide +kernel
  undone s _ := by
    rw [List.map_map]
    exact List.map_congr_left fun c _ => lowerChar_upperChar c

/-- Case-folding keeps the byte length of a text with a letter above 0x80; two texts below 0x80 differ in case only. -/
theorem witness_HashIgnoresLetterCase :
    Normalizer.LowerOk (fun s => s.map lowerChar) ∧ Normalizer.UpperOk (fun s => s.map lowerChar) (fun s => s.map upperChar) ∧
    Normalizer.KeepsByteLength (fun s => s.map lowerChar) ['A', 'É'] ∧
    (∀ c ∈ ['A', 'b', '1'], c.toNat < 0x80) ∧ (∀ c ∈ ['a', 'B', '1'], c.toNat < 0x80) ∧
    ['A', 'b', '1'].map Normalizer.asciiLower = ['a', 'B', '1'].map Normalizer.asciiLower :=
  ⟨lowerChar_ok, upperChar_ok, show (Normalizer.encodeUtf8 [_, _]).length = (Normalizer.encodeUtf8 [_, _]).length by
    decide +kernel, by simp, by simp, by simp [Normalizer.asciiLower]⟩
theorem witness_LowerActsOnEveryLetter :
    Normalizer.LowerOk (fun s => s.map lowerChar) ∧ 'A'.toNat < 0x80 ∧ (∀ c ∈ ['A', 'b', '1'], c.toNat < 0x80) :=
  ⟨lowerChar_ok, by decide, by simp⟩

end Sys2Proof.Tests
end

section
/-! The word operators of the model as the arithmetic of spec/00_scope.md R8. -/

namespace Sys2Proof.Machine

theorem rol32_zero (x : Word) : rol32 x 0 = x := by
  rw [rol32, BitVec.shiftLeft_zero, BitVec.ushiftRight_eq_zero (by omega), BitVec.or_zero]

/-- The two halves of a rotation do not overlap, so their union is their sum: the left one is a multiple of `2^n`, the right
one is below it. -/
theorem toNat_rol32 (x : Word) {n : Nat} (h : n ≤ 32) :
    (rol32 x n).toNat = x.toNat * 2 ^ n % 2 ^ 32 + x.toNat / 2 ^ (32 - n) := by
  have hpow : 2 ^ 32 = 2 ^ (32 - n) * 2 ^ n := by rw [← pow_add, Nat.sub_add_cancel h]
  have hleft : x.toNat * 2 ^ n % 2 ^ 32 = (x.toNat % 2 ^ (32 - n)) <<< n := by
    rw [hpow, Nat.mul_mod_mul_right, Nat.shiftLeft_eq]
  have hright : x.toNat / 2 ^ (32 - n) < 2 ^ n :=
    Nat.div_lt_of_lt_mul (lt_of_lt_of_eq x.isLt hpow)
  rw [rol32, BitVec.toNat_or, BitVec.toNat_shiftLeft, BitVec.toNat_ushiftRight, Nat.shiftLeft_eq, Nat.shiftRight_eq_div_pow,
    hleft, Nat.shiftLeft_add_eq_or_of_lt hright]

/-- Settles O36: the library's laws of `+`, `AND`, `OR`, `XOR` and `NOT` on bit vectors, and the two lemmas on `rol32`. -/
theorem wordOperatorsAreTheSpecsArithmetic : Obligations.WordOperatorsAreTheSpecsArithmetic :=
  ⟨BitVec.toNat_add, fun _ _ _ _ => ⟨BitVec.getLsbD_and, BitVec.getLsbD_or, BitVec.getLsbD_xor⟩,
    fun _ => BitVec.toNat_not, rol32_zero, fun x _ _ hn => toNat_rol32 x (by omega)⟩

end Sys2Proof.Machine
end

section
/-! `DIGEST` as a function of the first 16 words of the buffer: each step of the expansion reads words already determined by
them, and the rounds read the words 0 to 79 only (spec/00_scope.md R10, R11). -/

namespace Sys2Proof.Machine.Digest

variable {m : List Byte} {w w' : List Word} {n x : Nat}

@[simp] theorem length_paddedBuffer (m : List Byte) : (paddedBuffer m).length = 1024 := by
  rw [paddedBuffer, List.length_take, List.length_append, List.length_replicate]
  omega

/-- The buffer holds the message and is zero behind it. -/
theorem getD_paddedBuffer (hx : x < 1024) : (paddedBuffer m).getD x 0 = m.getD x 0 := by
  rw [paddedBuffer, List.getD_eq_getElem?_getD, List.getElem?_take_of_lt hx, ← List.getD_eq_getElem?_getD]
  by_cases h : x < m.length
  · rw [List.getD_append _ _ _ _ h]
  · have hm : m.length ≤ x := by omega
    rw [List.getD_append_right _ _ _ _ hm, List.getD_eq_getElem?_getD, List.getElem?_getD_replicate_default_eq,
      List.getD_eq_default _ _ hm]

@[simp] theorem length_wordsOf (l : List Byte) : (wordsOf l).length = l.length / 4 := by
  induction l using wordsOf.induct with
  | case1 b0 b1 b2 b3 rest ih => simp only [wordsOf, List.length_cons, ih]; omega
  | case2 l h =>
    have hl : l.length < 4 := by
      rcases l with _ | ⟨b0, _ | ⟨b1, _ | ⟨b2, _ | ⟨b3, rest⟩⟩⟩⟩
      case cons.cons.cons.cons => exact absurd rfl (h b0 b1 b2 b3 rest)
      all_goals simp
    rw [wordsOf.eq_2 l h, Nat.div_eq_of_lt hl, List.length_nil]

/-- Word `i` of a byte string is made of its bytes `4i` to `4i + 3` (R21). -/
theorem getD_wordsOf {l : List Byte} {i : Nat} (h : 4 * i + 4 ≤ l.length) :
    (wordsOf l).getD i 0 = leWord (l.getD (4 * i) 0) (l.getD (4 * i + 1) 0) (l.getD (4 * i + 2) 0) (l.getD (4 * i + 3) 0) := by
  induction i generalizing l with
  | zero =>
    match l, h with
    | b0 :: b1 :: b2 :: b3 :: rest, _ => rfl
  | succ i ih =>
    match l, h with
    | b0 :: b1 :: b2 :: b3 :: rest, h => exact ih (by simp only [List.length_cons] at h; omega)

/-- Two word lists of one length that hold the same words at the indices below `n`. -/
def AgreeBelow (n : Nat) (w w' : List Word) : Prop :=
  w.length = w'.length ∧ ∀ j, j < n → w.getD j 0 = w'.getD j 0

/-- One expansion step reads below `i + 14` and writes at `i + 16`: it extends an agreement below `i + 16` by one word. -/
theorem AgreeBelow.expandAt {i : Nat} (h : AgreeBelow (i + 16) w w') :
    AgreeBelow (i + 1 + 16) (expandAt w i) (expandAt w' i) := by
  obtain ⟨hlen, hget⟩ := h
  simp only [Digest.expandAt, hget i (by omega), hget (i + 2) (by omega), hget (i + 8) (by omega), hget (i + 13) (by omega)]
  refine ⟨by simp only [List.length_set, hlen], fun j hj => ?_⟩
  simp only [List.getD_eq_getElem?_getD, List.getElem?_set, hlen]
  by_cases hji : i + 16 = j
  · simp only [if_pos hji]
  · simp only [if_neg hji, ← List.getD_eq_getElem?_getD]
    exact hget j (by omega)

/-- Lists that agree on the words 0 to 15 agree, after the first `n` expansion steps, on the words below `n + 16`. -/
theorem AgreeBelow.expand (h : AgreeBelow 16 w w') (n : Nat) :
    AgreeBelow (n + 16) ((List.range n).foldl Digest.expandAt w) ((List.range n).foldl Digest.expandAt w') := by
  induction n with
  | zero => exact h
  | succ n ih =>
    simp only [List.range_succ, List.foldl_append, List.foldl_cons, List.foldl_nil]
    exact ih.expandAt

/-- The rounds read the words 0 to 79 only. -/
theorem AgreeBelow.finalAccs_eq (h : AgreeBelow 80 w w') : finalAccs w = finalAccs w' := by
  have hround : ∀ (s : Accs), ∀ t ∈ List.range 80, roundAt w s t = roundAt w' s t := fun s t ht => by
    simp only [roundAt, h.2 t (List.mem_range.1 ht)]
  simp only [finalAccs, List.foldl_ext _ _ initial hround]

/-- Messages with the same zero-filled bytes 0 to 63 have the same words 0 to 15. -/
theorem agreeBelow_wordsOf {m' : List Byte} (h : ∀ x, x < 64 → m.getD x 0 = m'.getD x 0) :
    AgreeBelow 16 (wordsOf (paddedBuffer m)) (wordsOf (paddedBuffer m')) := by
  refine ⟨by simp only [length_wordsOf, length_paddedBuffer], fun i hi => ?_⟩
  have hbyte : ∀ x, x < 64 → (paddedBuffer m).getD x 0 = (paddedBuffer m').getD x 0 := fun x hx => by
    rw [getD_paddedBuffer (by omega), getD_paddedBuffer (by omega), h x hx]
  rw [getD_wordsOf (by rw [length_paddedBuffer]; omega), getD_wordsOf (by rw [length_paddedBuffer]; omega),
    hbyte (4 * i) (by omega), hbyte (4 * i + 1) (by omega), hbyte (4 * i + 2) (by omega), hbyte (4 * i + 3) (by omega)]

/-- Settles O49: the agreement on the words 0 to 15 grows to the 80 words the rounds read. -/
theorem digestDependsOnTheFirst64Bytes : Obligations.DigestDependsOnTheFirst64Bytes := by
  intro m m' _ _ _ _ h
  have haccs : finalAccs (schedule m) = finalAccs (schedule m') := ((agreeBelow_wordsOf h).expand 64).finalAccs_eq
  simp only [digest, haccs]

end Sys2Proof.Machine.Digest
end

section
/-! The word view of the buffer (spec/10_state.md R21) and the words that the expansion writes (R161, R164). -/

namespace Sys2Proof.Machine

/-- Byte `j` of a word, least significant first, as a number (R51). -/
theorem toNat_getD_leBytes (v : Word) {j : Nat} (hj : j < 4) :
    ((leBytes v).getD j 0).toNat = v.toNat / 2 ^ (8 * j) % 256 := by
  have hbyte : (leBytes v).getD j 0 = v.extractLsb' (8 * j) 8 := by
    match j, hj with
    | 0, _ | 1, _ | 2, _ | 3, _ => rfl
  rw [hbyte, BitVec.extractLsb'_toNat, Nat.shiftRight_eq_div_pow]

/-- Settles O34: the laws of `leWord` and of the bytes and words after `Memory.writeWord`. -/
theorem wordViewIsLittleEndian : Obligations.WordViewIsLittleEndian := by
  intro m i hi
  refine ⟨Memory.leWord_toNat _ _ _ _, fun v hwf =>
    ⟨fun j hj => ?_, fun x hx => ?_, Memory.word_writeWord_self hwf hi⟩⟩
  · rw [Memory.byte_writeWord hwf hi, if_pos (by omega), Nat.add_sub_cancel_left, toNat_getD_leBytes v hj]
  · rw [Memory.byte_writeWord hwf hi, if_neg (by omega)]

theorem expandShift_lt (w0 w2 w8 w13 : Word) : expandShift w0 w2 w8 w13 < 32 := by
  rw [expandShift, BitVec.toNat_and]
  exact Nat.lt_succ_of_le Nat.and_le_right

/-- A single bit, rotated, is a single bit. -/
theorem toNat_rol32_one {n : Nat} (hn : n < 32) : (rol32 1 n).toNat = 2 ^ n := by
  have hlow : 2 ^ n < 2 ^ 32 := Nat.pow_lt_pow_right (by omega) hn
  have hhigh : 1 < 2 ^ (32 - n) := Nat.one_lt_two_pow (by omega)
  rw [toNat_rol32 1 (by omega), show (1 : Word).toNat = 1 from rfl, Nat.one_mul, Nat.mod_eq_of_lt hlow,
    Nat.div_eq_of_lt hhigh, Nat.add_zero]

theorem Memory.toNat_expansion (m : Memory) (i : Nat) : ∃ n, n < 32 ∧ (m.expansion i).toNat = 2 ^ n :=
  ⟨_, expandShift_lt _ _ _ _, toNat_rol32_one (expandShift_lt _ _ _ _)⟩

/-- Settles O41: after the expansion each of these words is an expanded word, a 1 rotated by less than 32. -/
theorem expandedWordsArePowersOfTwo : Obligations.ExpandedWordsArePowersOfTwo := by
  intro c hinv hafter j hlo hhi
  have hword : c.buf.word (j - 16 + 16) = c.buf.expansion (j - 16) :=
    hinv.expanded hafter (j - 16) (by rw [Config.nExp]; omega)
  rw [Nat.sub_add_cancel hlo] at hword
  rw [hword]
  exact c.buf.toNat_expansion (j - 16)

/-- The sources of step `j` are words below `W[j+16]` (R161). -/
theorem Memory.expansion_writeWord {m : Memory} {i j : Nat} {v : Word} (hwf : m.wf = true) (hi : i < 64) (hj : j ≤ i) :
    (m.writeWord (i + 16) v).expansion j = m.expansion j := by
  have hkeep : ∀ x, x < i + 16 → (m.writeWord (i + 16) v).word x = m.word x := fun x hx =>
    word_writeWord_of_ne hwf (by omega) (by omega)
  rw [expansion, hkeep j (by omega), hkeep (j + 2) (by omega), hkeep (j + 8) (by omega), hkeep (j + 13) (by omega)]
  rfl

/-- `XSTEP i` expands one word more, and the words expanded before stay so. -/
theorem Memory.expandedBelow_writeWord {m : Memory} {i : Nat} (hwf : m.wf = true) (hi : i < 64) (h : m.expandedBelow i) :
    (m.writeWord (i + 16) (m.expansion i)).expandedBelow (i + 1) := by
  intro j hj
  rw [expansion_writeWord hwf hi (by omega)]
  by_cases hji : j = i
  · rw [hji, word_writeWord_self hwf (by omega)]
  · rw [word_writeWord_of_ne hwf (by omega) (by omega), h j (by omega)]

end Sys2Proof.Machine
end
section
/-! What one turn can do to the core, said once: a command with its response, a move of the sequencer, a reset
(spec/20_memory.md R60, spec/30_encoding.md R72, R77, spec/42_sequencer_control.md R144). -/

namespace Sys2Proof.Machine

/-! ## Commands -/

/-- What a command frame, legal or not, can make of the core (R76, R77, R121 to R123, R142). -/
inductive CoreState.CommandMove (c : CoreState) : CoreState → Prop
  | keep : CommandMove c c
  | clear : CommandMove c CoreState.reset
  | append (bs : List Byte) (hph : c.ph = .idle) (hlen : c.len.toNat + bs.length ≤ 1024) :
      CommandMove c { c with
        buf := c.buf.writeBytes c.len.toNat bs
        len := c.len + BitVec.ofNat 11 bs.length }
  | fail (cause : ECause) (hph : c.ph = .idle) (hcause : cause ≠ .none) : CommandMove c (c.enterError cause)
  | start (hph : c.ph = .idle) (hlen : c.len ≠ 0) : CommandMove c c.startRun

/-- From `s` a command leads to `t`: one response, with data only when it is `OK`, and a move of the core. -/
def State.Answers (s t : State) : Prop :=
  ∃ st data d, t = (s.withCore d).respond st data ∧ (st ≠ .ok → data = 0) ∧ s.core.CommandMove d

variable {s done : State}

theorem State.answers_refusal (s : State) (st : Status) : s.Answers (s.respond st 0) :=
  ⟨st, 0, s.core, rfl, fun _ => rfl, .keep⟩

theorem State.answers_ok (s : State) (data : Word) : s.Answers (s.respond .ok data) :=
  ⟨.ok, data, s.core, rfl, fun h => absurd rfl h, .keep⟩

theorem State.answers_raiseInvalidData {cause : ECause} (hph : s.core.ph = .idle) (hcause : cause ≠ .none) :
    s.Answers (s.raiseInvalidData cause) :=
  ⟨.invalidData, 0, _, rfl, fun _ => rfl, .fail cause hph hcause⟩

/-- A gated command answers as its own rule does in its phase, and with a refusal elsewhere. -/
theorem State.answers_whenPhase {need : Phase} (h : s.core.ph = need → s.Answers done) :
    s.Answers (s.whenPhase need done) := by
  rcases s.whenPhase_cases need done with ⟨-, he⟩ | ⟨-, -, he⟩ | ⟨-, -, hph, he⟩ | ⟨-, -, -, he⟩ <;> rw [he]
  · exact s.answers_refusal .refused
  · exact s.answers_refusal .invalidData
  · exact h hph
  · exact s.answers_refusal .refused

theorem State.answers_appendBytes (bs : List Byte) (hph : s.core.ph = .idle) : s.Answers (s.appendBytes bs) := by
  rcases s.appendBytes_cases bs with ⟨hlen, he⟩ | ⟨-, he⟩ <;> rw [he]
  · exact ⟨.ok, 0, _, rfl, fun _ => rfl, .append bs hph hlen⟩
  · exact answers_raiseInvalidData hph nofun

theorem State.answers_readOutput (view : Option Word) (s : State) : s.Answers (s.readOutput view) := by
  rcases s.readOutput_cases view with ⟨-, he⟩ | ⟨data, -, he⟩ <;> rw [he]
  · exact s.answers_refusal .illegal
  · exact answers_whenPhase fun _ => s.answers_ok data

/-- `START` in `IDLE`: without a message the error entry, else the run begins (R142). -/
theorem State.answers_start (hph : s.core.ph = .idle) :
    s.Answers (if s.core.len = 0 then s.raiseInvalidData .empty else (s.withCore s.core.startRun).respond .ok 0) := by
  split
  case isTrue => exact answers_raiseInvalidData hph nofun
  case isFalse hlen => exact ⟨.ok, 0, _, rfl, fun _ => rfl, .start hph hlen⟩

/-- Every host command goes on, with one response. -/
theorem exec_answers {i : Instr} (hi : i.isCommand = true) (s : State) : ∃ t, exec i s = .next t ∧ s.Answers t := by
  cases i with
  | nop => exact ⟨_, exec_nop s, s.answers_ok 0⟩
  | clr => exact ⟨_, exec_clr s, .ok, 0, _, rfl, fun _ => rfl, .clear⟩
  | pushb b => exact ⟨_, exec_pushb b s, State.answers_whenPhase (State.answers_appendBytes [b])⟩
  | pushw w => exact ⟨_, exec_pushw w s, State.answers_whenPhase (State.answers_appendBytes (leBytes w))⟩
  | start => exact ⟨_, exec_start s, State.answers_whenPhase State.answers_start⟩
  | stat => exact ⟨_, exec_stat s, s.answers_ok _⟩
  | rdb k => exact ⟨_, exec_rdb k s, s.answers_readOutput _⟩
  | rdw k => exact ⟨_, exec_rdw k s, s.answers_readOutput _⟩
  | rdh k => exact ⟨_, exec_rdh k s, s.answers_readOutput _⟩
  | xstep | hinit | rstep1 | rstep2 | rstep3 | rstep4 | fin => cases hi

/-- A command frame runs the command it spells; one that spells none answers `ILLEGAL` (R76). -/
theorem step_command_cases {c : Frame} (h : s.nextTurn = .command c) :
    (∃ i, decodeFrame c = .instr i ∧ i.isCommand = true ∧ step s = exec i s.takeTurn) ∨
    ((∃ why, decodeFrame c = .rejected why) ∧ step s = .next (s.takeTurn.respond .illegal 0)) := by
  have hfetch : s.fetch = fetchCommand c := by simp only [State.fetch, h]
  cases hd : decodeFrame c with
  | instr i => exact .inl ⟨i, rfl, isCommand_of_decodeFrame hd, by simp only [step, hfetch, fetchCommand, hd]⟩
  | rejected why => exact .inr ⟨⟨why, rfl⟩, by simp only [step, hfetch, fetchCommand, hd]⟩

theorem step_answers {c : Frame} (h : s.nextTurn = .command c) : ∃ t, step s = .next t ∧ s.takeTurn.Answers t := by
  rcases step_command_cases h with ⟨i, -, hi, he⟩ | ⟨-, he⟩
  · exact he ▸ exec_answers hi s.takeTurn
  · exact ⟨_, he, s.takeTurn.answers_refusal .illegal⟩

/-! ## The sequencer and reset -/

/-- What a sequencer turn makes of a core whose pair is legal (R144): a micro-operation while busy, else nothing. -/
inductive CoreState.SequencerMove (c : CoreState) : CoreState → Prop
  | xstep (hph : c.ph = .expand) (hcnt : c.cnt.toNat < 64) : SequencerMove c (c.xstep c.cnt.toNat)
  | hinit (hph : c.ph = .init) : SequencerMove c c.hinit
  | round (f : Word → Word → Word → Word) (k : Word) (hph : c.ph = .round) (hcnt : c.cnt.toNat < 80) :
      SequencerMove c (c.roundStep f k c.cnt.toNat)
  | fin (hph : c.ph = .final) (hcnt : c.cnt.toNat = 0) : SequencerMove c c.fin
  | rest (hph : c.ph = .idle ∨ c.ph = .done ∨ c.ph = .error) : SequencerMove c c

/-- The micro-operation of round `t` is one round, with the function and the constant of its phase (R184 to R187). -/
theorem exec_decodeRound {t : Nat} (ht : t < 80) (s : State) :
    ∃ i f k, decodeRound t = .instr i ∧ exec i s = .next (s.withCore (s.core.roundStep f k t)) := by
  unfold decodeRound
  split_ifs with h1 h2 h3
  · exact ⟨_, _, _, rfl, exec_rstep1 h1 s⟩
  · exact ⟨_, _, _, rfl, exec_rstep2 ⟨by omega, h2⟩ s⟩
  · exact ⟨_, _, _, rfl, exec_rstep3 ⟨by omega, h3⟩ s⟩
  · exact ⟨_, _, _, rfl, exec_rstep4 ⟨by omega, ht⟩ s⟩

theorem step_of_decodePhase {i : Instr} (h : s.nextTurn = .sequencer)
    (hd : decodePhase s.core.ph.code s.core.cnt.toNat = .instr i) : step s = exec i s.takeTurn := by
  simp only [step, State.fetch, h, fetchSeq, CoreState.decodeSeq_seqWord, hd]

theorem step_of_noMicroOp (h : s.nextTurn = .sequencer)
    (hd : decodePhase s.core.ph.code s.core.cnt.toNat = .rejected .noMicroOp) : step s = .next s.takeTurn := by
  simp only [step, State.fetch, h, fetchSeq, CoreState.decodeSeq_seqWord, hd]

/-- From a legal pair a sequencer turn goes on, with no response. -/
theorem step_sequencer (h : s.nextTurn = .sequencer) (hpair : s.core.pairLegal = true) :
    ∃ d, step s = .next (s.takeTurn.withCore d) ∧ s.core.SequencerMove d := by
  rcases s.core.pairLegal_iff.1 hpair with ⟨hph, hcnt⟩ | ⟨hph, hcnt⟩ | ⟨hph, hcnt⟩
  · exact ⟨_, (step_of_decodePhase h (by simp [hph, hcnt, Phase.code, decodePhase])).trans (exec_xstep hcnt _),
      .xstep hph hcnt⟩
  · obtain ⟨i, f, k, hround, hexec⟩ := exec_decodeRound hcnt s.takeTurn
    exact ⟨_, (step_of_decodePhase h (by simpa [hph, Phase.code, decodePhase] using hround)).trans hexec,
      .round f k hph hcnt⟩
  · have hrest : s.core.ph = .idle ∨ s.core.ph = .done ∨ s.core.ph = .error →
        ∃ d, step s = .next (s.takeTurn.withCore d) ∧ s.core.SequencerMove d := fun hr => by
      refine ⟨s.core, step_of_noMicroOp h ?_, .rest hr⟩
      rcases hr with hr | hr | hr <;> simp [hr, hcnt, Phase.code, decodePhase, decodeAtZero]
    rcases hph with hph | hph | hph | hph | hph
    · exact hrest (.inl hph)
    · exact ⟨_, (step_of_decodePhase h (by simp [hph, hcnt, Phase.code, decodePhase, decodeAtZero])).trans (exec_hinit _),
        .hinit hph⟩
    · exact ⟨_, (step_of_decodePhase h (by simp [hph, hcnt, Phase.code, decodePhase, decodeAtZero])).trans (exec_fin _),
        .fin hph hcnt⟩
    · exact hrest (.inr (.inl hph))
    · exact hrest (.inr (.inr hph))

theorem step_reset (h : s.nextTurn = .reset) : step s = .next s.takeTurn.clear := by
  simp only [step, State.fetch, h]

end Sys2Proof.Machine
end

section
/-! The invariant of spec/10_state.md R35: reset meets it and every turn keeps it. -/

namespace Sys2Proof.Machine

variable {c d : CoreState} {s t : State}

/-- Every phase but the code that is never reached makes a row of R27 with `CNT = 0`. -/
theorem CoreState.pairLegal_of_zero (hph : c.ph ≠ .unreached) (hcnt : c.cnt.toNat = 0) : c.pairLegal = true := by
  rw [pairLegal_iff]
  cases h : c.ph <;> simp_all

theorem CoreState.busy_iff : c.busy = true ↔ c.ph = .expand ∨ c.ph = .init ∨ c.ph = .round ∨ c.ph = .final := by
  unfold CoreState.busy
  cases c.ph <;> simp

theorem CoreState.done_iff : c.done = true ↔ c.ph = .done := decide_eq_true_iff

/-! ## Where the clauses of the invariant speak -/

/-- Outside `ERROR` the cause is 0 (R35 item 5). -/
theorem CoreState.Inv.ecause_none (h : c.Inv) (hph : c.ph ≠ .error) : c.ecause = .none :=
  not_ne_iff.1 fun hc => hph (h.cause.1 hc)

/-- In `IDLE` only the items 1 to 3 and 5 of R35 say something. -/
theorem CoreState.Inv.of_idle (hph : c.ph = .idle) (hpair : c.pairLegal = true) (hlen : c.len.toNat ≤ 1024)
    (hwf : c.buf.wf = true) (htail : ∀ k, c.len.toNat ≤ k → c.buf.byte k = 0) (hcause : c.ecause = .none) : c.Inv where
  pair := hpair
  lenBound := hlen
  bufWf := hwf
  idleTail _ := htail
  loaded := by simp [busy_iff, done_iff, hph]
  cause := by simp [hph, hcause]
  expanding := by simp [hph]
  expanded := by simp [afterExpansion, hph]

/-- In `ERROR` the cause is not 0, and only the items 1, 2 and 5 of R35 say something. -/
theorem CoreState.Inv.of_error (hph : c.ph = .error) (hcnt : c.cnt.toNat = 0) (hlen : c.len.toNat ≤ 1024)
    (hwf : c.buf.wf = true) (hcause : c.ecause ≠ .none) : c.Inv where
  pair := pairLegal_of_zero (by simp [hph]) hcnt
  lenBound := hlen
  bufWf := hwf
  idleTail := by simp [hph]
  loaded := by simp [busy_iff, done_iff, hph]
  cause := by simp [hph, hcause]
  expanding := by simp [hph]
  expanded := by simp [afterExpansion, hph]

/-- A message is loaded, within the bounds of R35 items 2 and 4, and no error has been raised. -/
structure CoreState.Loaded (c : CoreState) : Prop where
  pos : 1 ≤ c.len.toNat
  bound : c.len.toNat ≤ 1024
  noCause : c.ecause = .none

theorem CoreState.Loaded.of_eq (h : c.Loaded) (hlen : d.len = c.len) (hecause : d.ecause = c.ecause) : d.Loaded where
  pos := hlen ▸ h.pos
  bound := hlen ▸ h.bound
  noCause := hecause.trans h.noCause

theorem CoreState.Inv.of_expand (hph : c.ph = .expand) (hcnt : c.cnt.toNat < 64) (hloaded : c.Loaded)
    (hwf : c.buf.wf = true) (hexp : c.buf.expandedBelow c.cnt.toNat) : c.Inv where
  pair := c.pairLegal_iff.2 (.inl ⟨hph, hcnt⟩)
  lenBound := hloaded.bound
  bufWf := hwf
  idleTail := by simp [hph]
  loaded _ := hloaded.pos
  cause := by simp [hph, hloaded.noCause]
  expanding _ := hexp
  expanded := by simp [afterExpansion, hph]

theorem CoreState.Inv.of_afterExpansion (hafter : c.afterExpansion) (hpair : c.pairLegal = true) (hloaded : c.Loaded)
    (hwf : c.buf.wf = true) (hexp : c.buf.expandedBelow 64) : c.Inv where
  pair := hpair
  lenBound := hloaded.bound
  bufWf := hwf
  idleTail h := by simp [afterExpansion, h] at hafter
  loaded _ := hloaded.pos
  cause := by
    have hph : c.ph ≠ .error := fun h => by simp [afterExpansion, h] at hafter
    simp [hph, hloaded.noCause]
  expanding h := by simp [afterExpansion, h] at hafter
  expanded _ := hexp

/-- While busy and in `DONE` the message is loaded and no error has been raised. -/
theorem CoreState.Inv.loaded_of_running (h : c.Inv) (hrun : c.ph = .expand ∨ c.afterExpansion) : c.Loaded := by
  have hlen : 1 ≤ c.len.toNat := h.loaded (by
    rw [busy_iff, done_iff]
    rcases hrun with hph | hph | hph | hph | hph <;> simp [hph])
  have herr : c.ph ≠ .error := fun he => by simp [afterExpansion, he] at hrun
  exact ⟨hlen, h.lenBound, h.ecause_none herr⟩

theorem CoreState.reset_inv : CoreState.reset.Inv :=
  .of_idle rfl (pairLegal_of_zero nofun rfl) (Nat.zero_le _) rfl (fun _ _ => rfl) rfl

/-- Settles O38: the core is idle and empty, and no response has been given. -/
theorem resetMeetsTheInvariant : Obligations.ResetMeetsTheInvariant :=
  ⟨CoreState.reset_inv, fun _ hr => nomatch hr⟩

/-! ## The moves keep the core's invariant -/

/-- An append in bounds moves `LEN` without wrapping. -/
theorem toNat_len_append {len : BitVec 11} {n : Nat} (h : len.toNat + n ≤ 1024) :
    (len + BitVec.ofNat 11 n).toNat = len.toNat + n := by
  rw [BitVec.toNat_add, BitVec.toNat_ofNat]
  omega

theorem CoreState.CommandMove.inv (hmove : c.CommandMove d) (h : c.Inv) : d.Inv := by
  cases hmove with
  | keep => exact h
  | clear => exact reset_inv
  | append bs hph hlen =>
    have hlen' := toNat_len_append hlen
    refine .of_idle hph h.pair (hlen'.trans_le hlen) (Memory.wf_writeBytes h.bufWf hlen) (fun k hk => ?_)
      (h.ecause_none (by simp [hph]))
    rw [hlen'] at hk
    rw [Memory.byte_writeBytes h.bufWf hlen, if_neg (by omega)]
    exact h.idleTail hph k (by omega)
  | fail cause hph hcause => exact .of_error rfl rfl h.lenBound h.bufWf hcause
  | start hph hlen =>
    have hpos : 1 ≤ c.len.toNat := Nat.one_le_iff_ne_zero.2 fun h0 => hlen (BitVec.eq_of_toNat_eq h0)
    exact .of_expand rfl (Nat.zero_lt_succ _) ⟨hpos, h.lenBound, h.ecause_none (by simp [hph])⟩ h.bufWf nofun

/-- Where `XSTEP i` leads: to `INIT` from the last step, else to the next step of the same phase (R144). -/
theorem CoreState.xstep_pair (c : CoreState) {i : Nat} (hi : i < 64) :
    (i = 63 ∧ (c.xstep i).ph = .init ∧ (c.xstep i).cnt.toNat = 0) ∨
    (i + 1 < 64 ∧ (c.xstep i).ph = c.ph ∧ (c.xstep i).cnt.toNat = i + 1) := by
  rw [xstep_ph, xstep_cnt]
  split
  case isTrue hlast => exact .inl ⟨hlast, rfl, rfl⟩
  case isFalse hlast =>
    refine .inr ⟨by omega, rfl, ?_⟩
    rw [BitVec.toNat_ofNat, Nat.mod_eq_of_lt (by omega)]

/-- Where round `t` leads: to `FINAL` from the last round, else to the next round (R144). -/
theorem CoreState.roundStep_pair (f : Word → Word → Word → Word) (k : Word) (c : CoreState) {t : Nat} (ht : t < 80) :
    (t = 79 ∧ (c.roundStep f k t).ph = .final ∧ (c.roundStep f k t).cnt.toNat = 0) ∨
    (t + 1 < 80 ∧ (c.roundStep f k t).ph = c.ph ∧ (c.roundStep f k t).cnt.toNat = t + 1) := by
  rw [roundStep_ph, roundStep_cnt]
  split
  case isTrue hlast => exact .inl ⟨hlast, rfl, rfl⟩
  case isFalse hlast =>
    refine .inr ⟨by omega, rfl, ?_⟩
    rw [BitVec.toNat_ofNat, Nat.mod_eq_of_lt (by omega)]

theorem CoreState.SequencerMove.len_eq (hmove : c.SequencerMove d) : d.len = c.len := by
  cases hmove <;> simp

theorem CoreState.SequencerMove.ecause_eq (hmove : c.SequencerMove d) : d.ecause = c.ecause := by
  cases hmove <;> simp

theorem CoreState.SequencerMove.pairLegal (hmove : c.SequencerMove d) (h : c.pairLegal = true) : d.pairLegal = true := by
  cases hmove with
  | xstep hph hcnt =>
    rcases c.xstep_pair hcnt with ⟨-, hph', hcnt'⟩ | ⟨hlt, hph', hcnt'⟩
    · exact pairLegal_of_zero (ne_of_eq_of_ne hph' nofun) hcnt'
    · exact (pairLegal_iff _).2 (.inl ⟨hph'.trans hph, hcnt'.trans_lt hlt⟩)
  | hinit hph => exact pairLegal_of_zero nofun rfl
  | round f k hph hcnt =>
    rcases c.roundStep_pair f k hcnt with ⟨-, hph', hcnt'⟩ | ⟨hlt, hph', hcnt'⟩
    · exact pairLegal_of_zero (ne_of_eq_of_ne hph' nofun) hcnt'
    · exact (pairLegal_iff _).2 (.inr (.inl ⟨hph'.trans hph, hcnt'.trans_lt hlt⟩))
  | fin hph hcnt => exact pairLegal_of_zero nofun hcnt
  | rest hph => exact h

/-- After the expansion no move changes the buffer, and the phases go on to `DONE`. -/
theorem CoreState.SequencerMove.afterExpansion (hmove : c.SequencerMove d) (h : c.afterExpansion) :
    d.afterExpansion ∧ d.buf = c.buf := by
  cases hmove with
  | xstep hph hcnt => simp [CoreState.afterExpansion, hph] at h
  | hinit hph => exact ⟨.inr (.inl rfl), rfl⟩
  | round f k hph hcnt =>
    refine ⟨?_, roundStep_buf f k _ c⟩
    rcases c.roundStep_pair f k hcnt with ⟨-, hph', -⟩ | ⟨-, hph', -⟩
    · exact .inr (.inr (.inl hph'))
    · exact .inr (.inl (hph'.trans hph))
  | fin hph hcnt => exact ⟨.inr (.inr (.inr rfl)), rfl⟩
  | rest hph => exact ⟨h, rfl⟩

theorem CoreState.Inv.xstep (h : c.Inv) (hph : c.ph = .expand) (hcnt : c.cnt.toNat < 64) : (c.xstep c.cnt.toNat).Inv := by
  have hmove := SequencerMove.xstep hph hcnt
  have hloaded : (c.xstep c.cnt.toNat).Loaded := (h.loaded_of_running (.inl hph)).of_eq hmove.len_eq hmove.ecause_eq
  have hwf : (c.xstep c.cnt.toNat).buf.wf = true := by
    simpa using Memory.wf_writeWord h.bufWf (by omega)
  have hexp : (c.xstep c.cnt.toNat).buf.expandedBelow (c.cnt.toNat + 1) := by
    simpa using Memory.expandedBelow_writeWord h.bufWf hcnt (h.expanding hph)
  rcases c.xstep_pair hcnt with ⟨hlast, hph', -⟩ | ⟨hlt, hph', hcnt'⟩
  · exact .of_afterExpansion (.inl hph') (hmove.pairLegal h.pair) hloaded hwf fun j hj => hexp j (by omega)
  · exact .of_expand (hph'.trans hph) (hcnt'.trans_lt hlt) hloaded hwf (hcnt'.symm ▸ hexp)

/-- After the expansion a move changes nothing that the invariant speaks of but the pair. -/
theorem CoreState.Inv.move_of_afterExpansion (h : c.Inv) (hafter : c.afterExpansion) (hmove : c.SequencerMove d) :
    d.Inv := by
  obtain ⟨hafter', hbuf⟩ := hmove.afterExpansion hafter
  have hloaded : d.Loaded := (h.loaded_of_running (.inr hafter)).of_eq hmove.len_eq hmove.ecause_eq
  exact .of_afterExpansion hafter' (hmove.pairLegal h.pair) hloaded (hbuf ▸ h.bufWf) (hbuf ▸ h.expanded hafter)

theorem CoreState.SequencerMove.inv (hmove : c.SequencerMove d) (h : c.Inv) : d.Inv := by
  cases hmove with
  | xstep hph hcnt => exact h.xstep hph hcnt
  | hinit hph => exact h.move_of_afterExpansion (.inl hph) (.hinit hph)
  | round f k hph hcnt => exact h.move_of_afterExpansion (.inr (.inl hph)) (.round f k hph hcnt)
  | fin hph hcnt => exact h.move_of_afterExpansion (.inr (.inr (.inl hph))) (.fin hph hcnt)
  | rest hph => exact h

/-! ## The machine's invariant -/

theorem replyOk_reply {st : Status} {data : Word} (h : st ≠ .ok → data = 0) : replyOk (reply st data) := by
  rw [replyOk, replyStatus_reply, replyData_reply]
  cases st with
  | ok => exact ⟨Nat.zero_le _, fun hne => absurd rfl hne⟩
  | invalidData | refused | illegal => exact ⟨by decide, fun _ => h nofun⟩

theorem State.Answers.inv (hans : s.Answers t) (h : s.Inv) : t.Inv := by
  obtain ⟨st, data, d, rfl, hdata, hmove⟩ := hans
  exact ⟨hmove.inv h.1, List.forall_mem_cons.2 ⟨replyOk_reply hdata, h.2⟩⟩

/-- Settles O39: by the kind of the next turn, each with what it can do to the core and to the responses. -/
theorem everyStepKeepsTheInvariant : Obligations.EveryStepKeepsTheInvariant := by
  intro s t hinv hstep
  have htaken : s.takeTurn.Inv := hinv
  obtain ⟨hcore, hresponses⟩ := hinv
  cases hturn : s.nextTurn with
  | command c =>
    obtain ⟨u, hu, hans⟩ := step_answers hturn
    cases hu.symm.trans hstep
    exact hans.inv htaken
  | sequencer =>
    obtain ⟨d, hd, hmove⟩ := step_sequencer hturn hcore.pair
    cases hd.symm.trans hstep
    exact ⟨hmove.inv hcore, hresponses⟩
  | reset =>
    cases (step_reset hturn).symm.trans hstep
    exact ⟨CoreState.reset_inv, hresponses⟩

end Sys2Proof.Machine
end

section
/-! What the host sees of a core (spec/10_state.md R33): cores that look alike answer every frame alike. -/

namespace Sys2Proof.Machine

variable {c d : CoreState} {s s' x x' : State}

theorem CoreState.sameView.refl (c : CoreState) : c.sameView c := ⟨rfl, rfl, rfl, rfl, rfl, fun _ => rfl⟩

/-- Two cores in rows of R27 that look alike to the host. -/
structure CoreState.Alike (c d : CoreState) : Prop where
  legal : c.pairLegal = true
  legal' : d.pairLegal = true
  view : c.sameView d

namespace CoreState.Alike

theorem reset : CoreState.reset.Alike CoreState.reset :=
  ⟨reset_inv.pair, reset_inv.pair, sameView.refl _⟩

theorem err_eq (h : c.Alike d) : c.err = d.err := by
  obtain ⟨-, -, herr, -⟩ := h.view
  exact herr

theorem ecause_eq (h : c.Alike d) : c.ecause = d.ecause := by
  obtain ⟨-, -, -, hecause, -⟩ := h.view
  exact hecause

theorem len_eq (h : c.Alike d) : c.len = d.len := by
  obtain ⟨-, -, -, -, hlen, -⟩ := h.view
  exact hlen

theorem statusWord_eq (h : c.Alike d) : c.statusWord = d.statusWord := by
  obtain ⟨hbusy, hdone, herr, hecause, hlen, -⟩ := h.view
  simp only [statusWord, hbusy, hdone, herr, hecause, hlen]

theorem digestWords_eq (h : c.Alike d) (hph : c.ph = .done) : c.digestWords = d.digestWords := by
  obtain ⟨-, -, -, -, -, hwords⟩ := h.view
  exact hwords (done_iff.2 hph)

theorem error_iff (h : c.Alike d) : c.ph = .error ↔ d.ph = .error := by
  simpa only [err, decide_eq_decide] using h.err_eq

end CoreState.Alike

/-- In a row of R27 the core is in `IDLE` exactly when no flag is set. -/
theorem CoreState.idle_iff (h : c.pairLegal = true) :
    c.ph = .idle ↔ c.busy = false ∧ c.done = false ∧ c.err = false := by
  have hreached : c.ph ≠ .unreached := fun hu => by simp [pairLegal_iff, hu] at h
  unfold busy done err
  cases hph : c.ph <;> simp_all

/-- Alike cores are both in the phase that a gated command needs, or both not. -/
theorem CoreState.Alike.phase_iff {need : Phase} (h : c.Alike d) (hneed : need = .idle ∨ need = .done) :
    c.ph = need ↔ d.ph = need := by
  obtain ⟨hbusy, hdone, herr, -⟩ := h.view
  rcases hneed with rfl | rfl
  · rw [idle_iff h.legal, idle_iff h.legal', hbusy, hdone, herr]
  · rw [← done_iff, ← done_iff, hdone]

/-! ## Alike answers, by the shared operations -/

/-- From `s` and `s'` one command leads to `x` and `x'`: with the same response, to cores that are alike. -/
def State.AnswerAlike (s s' x x' : State) : Prop :=
  ∃ st data d d', x = (s.withCore d).respond st data ∧ x' = (s'.withCore d').respond st data ∧ d.Alike d'

section
variable (h : s.core.Alike s'.core)
include h

theorem State.respond_alike (st : Status) (data : Word) : s.AnswerAlike s' (s.respond st data) (s'.respond st data) :=
  ⟨st, data, s.core, s'.core, rfl, rfl, h⟩

theorem State.whenPhase_alike {need : Phase} (hneed : need = .idle ∨ need = .done)
    (hdone : s.core.ph = need → s'.core.ph = need → s.AnswerAlike s' x x') :
    s.AnswerAlike s' (s.whenPhase need x) (s'.whenPhase need x') := by
  simp only [whenPhase, h.legal, h.legal', h.error_iff, h.phase_iff hneed, Bool.true_eq_false, if_false]
  split_ifs with herr hph
  · exact respond_alike h .invalidData 0
  · exact hdone ((h.phase_iff hneed).2 hph) hph
  · exact respond_alike h .refused 0

theorem State.raiseInvalidData_alike (cause : ECause) :
    s.AnswerAlike s' (s.raiseInvalidData cause) (s'.raiseInvalidData cause) :=
  ⟨.invalidData, 0, _, _, rfl, rfl, CoreState.pairLegal_of_zero nofun rfl, CoreState.pairLegal_of_zero nofun rfl,
    rfl, rfl, rfl, rfl, h.len_eq, nofun⟩

theorem State.appendBytes_alike (bs : List Byte) : s.AnswerAlike s' (s.appendBytes bs) (s'.appendBytes bs) := by
  obtain ⟨hbusy, hdone, herr, hecause, hlen, hwords⟩ := h.view
  simp only [appendBytes, hlen]
  split
  · exact ⟨.ok, 0, _, _, rfl, rfl, h.legal, h.legal', hbusy, hdone, herr, hecause, rfl, hwords⟩
  · exact raiseInvalidData_alike h .overflow

theorem State.start_alike : s.AnswerAlike s'
    (if s.core.len = 0 then s.raiseInvalidData .empty else (s.withCore s.core.startRun).respond .ok 0)
    (if s'.core.len = 0 then s'.raiseInvalidData .empty else (s'.withCore s'.core.startRun).respond .ok 0) := by
  rw [h.len_eq]
  split
  · exact raiseInvalidData_alike h .empty
  · exact ⟨.ok, 0, _, _, rfl, rfl, CoreState.pairLegal_of_zero nofun rfl, CoreState.pairLegal_of_zero nofun rfl,
      rfl, rfl, rfl, h.ecause_eq, h.len_eq, nofun⟩

/-- An output read: the index is in the view in both or in neither, and in `DONE` both views show the same. -/
theorem State.readOutput_alike {view view' : Option Word} (hnone : view = none ↔ view' = none)
    (hview : s.core.ph = .done → view = view') :
    s.AnswerAlike s' (s.readOutput view) (s'.readOutput view') := by
  rcases s.readOutput_cases view with ⟨hv, he⟩ | ⟨data, hv, he⟩ <;>
    rcases s'.readOutput_cases view' with ⟨hv', he'⟩ | ⟨data', hv', he'⟩ <;> rw [he, he']
  · exact respond_alike h .illegal 0
  · simp [hv, hv'] at hnone
  · simp [hv, hv'] at hnone
  · refine whenPhase_alike h (.inr rfl) fun hph _ => ?_
    cases hv.symm.trans ((hview hph).trans hv')
    exact respond_alike h .ok data

end

/-! ## Alike answers to every frame -/

theorem CoreState.length_digestWords (c : CoreState) : c.digestWords.length = 5 := rfl

theorem CoreState.length_digestBytes (c : CoreState) : c.digestBytes.length = 20 := rfl

theorem CoreState.length_hexDigest (c : CoreState) : c.hexDigest.length = 40 := rfl

/-- Every host command is answered alike. -/
theorem exec_alike {i : Instr} (hi : i.isCommand = true) (h : s.core.Alike s'.core) :
    ∃ x x', exec i s = .next x ∧ exec i s' = .next x' ∧ s.AnswerAlike s' x x' := by
  cases i with
  | nop => exact ⟨_, _, exec_nop s, exec_nop s', State.respond_alike h .ok 0⟩
  | clr => exact ⟨_, _, exec_clr s, exec_clr s', .ok, 0, _, _, rfl, rfl, CoreState.Alike.reset⟩
  | pushb b =>
    exact ⟨_, _, exec_pushb b s, exec_pushb b s',
      State.whenPhase_alike h (.inl rfl) fun _ _ => State.appendBytes_alike h [b]⟩
  | pushw w =>
    exact ⟨_, _, exec_pushw w s, exec_pushw w s',
      State.whenPhase_alike h (.inl rfl) fun _ _ => State.appendBytes_alike h (leBytes w)⟩
  | start => exact ⟨_, _, exec_start s, exec_start s', State.whenPhase_alike h (.inl rfl) fun _ _ => State.start_alike h⟩
  | stat =>
    refine ⟨_, _, exec_stat s, exec_stat s', ?_⟩
    rw [h.statusWord_eq]
    exact State.respond_alike h .ok _
  | rdb k =>
    refine ⟨_, _, exec_rdb k s, exec_rdb k s', State.readOutput_alike h ?_ fun hph => ?_⟩
    · simp only [Option.map_eq_none_iff, List.getElem?_eq_none_iff, CoreState.length_digestBytes]
    · simp only [CoreState.digestBytes, h.digestWords_eq hph]
  | rdw k =>
    refine ⟨_, _, exec_rdw k s, exec_rdw k s', State.readOutput_alike h ?_ fun hph => ?_⟩
    · simp only [List.getElem?_eq_none_iff, CoreState.length_digestWords]
    · rw [h.digestWords_eq hph]
  | rdh k =>
    refine ⟨_, _, exec_rdh k s, exec_rdh k s', State.readOutput_alike h ?_ fun hph => ?_⟩
    · simp only [Option.map_eq_none_iff, List.getElem?_eq_none_iff, CoreState.length_hexDigest]
    · simp only [CoreState.hexDigest, CoreState.digestBytes, h.digestWords_eq hph]
  | xstep | hinit | rstep1 | rstep2 | rstep3 | rstep4 | fin => cases hi

/-- Every frame, legal or not, is answered alike. -/
theorem step_command_alike {c : Frame} (hs : s.nextTurn = .command c) (hs' : s'.nextTurn = .command c)
    (h : s.core.Alike s'.core) :
    ∃ x x', step s = .next x ∧ step s' = .next x' ∧ s.takeTurn.AnswerAlike s'.takeTurn x x' := by
  have htaken : s.takeTurn.core.Alike s'.takeTurn.core := h
  rcases step_command_cases hs with ⟨i, hi, hcommand, he⟩ | ⟨⟨why, hw⟩, he⟩ <;>
    rcases step_command_cases hs' with ⟨i', hi', -, he'⟩ | ⟨⟨why', hw'⟩, he'⟩
  · cases hi.symm.trans hi'
    rw [he, he']
    exact exec_alike hcommand htaken
  · cases hi.symm.trans hw'
  · cases hw.symm.trans hi'
  · exact ⟨_, _, he, he', State.respond_alike htaken .illegal 0⟩

/-- Settles O45: alike states answer the frame alike. -/
theorem hiddenStateDoesNotReachTheResponse : Obligations.HiddenStateDoesNotReachTheResponse := by
  intro s s' c rest rest' hturns hturns' hlegal hlegal' hview
  have hnext : s.nextTurn = .command c := by simp only [State.nextTurn, hturns]
  have hnext' : s'.nextTurn = .command c := by simp only [State.nextTurn, hturns']
  obtain ⟨x, x', hx, hx', st, data, d, d', rfl, rfl, halike⟩ :=
    step_command_alike hnext hnext' ⟨hlegal, hlegal', hview⟩
  exact ⟨_, _, reply st data, hx, hx', rfl, rfl, by simp [hturns], by simp [hturns'],
    halike.legal, halike.legal', halike.view⟩

end Sys2Proof.Machine
end

section
/-! Until a run has ended the host sees nothing of the message (spec/10_state.md R33): with fewer than the 146 moves of a run
two cores that look alike stay alike, whatever the turns. -/

namespace Sys2Proof.Machine

variable {c d c' d' : CoreState} {s s' t : State} {n : Nat} {ts : List Turn}

/-- The moves that the current run has taken, of the 146 from `(EXPAND, 0)` to `DONE` (R144); none before a run. -/
def CoreState.progress (c : CoreState) : Nat :=
  match c.ph with
  | .expand => c.cnt.toNat
  | .init => 64
  | .round => 65 + c.cnt.toNat
  | .final => 145
  | .done => 146
  | .idle | .error | .unreached => 0

/-- No command carries a run on. -/
theorem CoreState.CommandMove.progress_le (hmove : c.CommandMove d) : d.progress ≤ c.progress := by
  cases hmove with
  | keep | append => exact le_rfl
  | clear | fail | start => exact Nat.zero_le _

/-- A sequencer turn carries a run on by one move. -/
theorem CoreState.SequencerMove.progress_le (hmove : c.SequencerMove d) : d.progress ≤ c.progress + 1 := by
  cases hmove with
  | xstep hph hcnt =>
    rcases c.xstep_pair hcnt with ⟨hlast, hph', -⟩ | ⟨-, hph', hcnt'⟩
    · simp only [progress, hph', hph]; omega
    · simp only [progress, hph', hph, hcnt', le_refl]
  | hinit hph => simp [progress, hph]
  | round f k hph hcnt =>
    rcases c.roundStep_pair f k hcnt with ⟨hlast, hph', -⟩ | ⟨-, hph', hcnt'⟩
    · simp only [progress, hph', hph]; omega
    · simp only [progress, hph', hph, hcnt', Nat.add_assoc, le_refl]
  | fin hph hcnt => simp [progress, hph]
  | rest hph => exact Nat.le_succ _

theorem CoreState.done_err_of_busy (h : c.busy = true) : c.done = false ∧ c.err = false := by
  unfold busy at h
  unfold done err
  cases hph : c.ph <;> simp_all

/-- While busy the host sees the cause and `LEN` only. -/
theorem CoreState.sameView_of_busy (hc : c.busy = true) (hd : d.busy = true) (hecause : c.ecause = d.ecause)
    (hlen : c.len = d.len) : c.sameView d := by
  obtain ⟨hdone, herr⟩ := done_err_of_busy hc
  obtain ⟨hdone', herr'⟩ := done_err_of_busy hd
  exact ⟨hc.trans hd.symm, hdone.trans hdone'.symm, herr.trans herr'.symm, hecause, hlen,
    fun h => absurd (hdone.symm.trans h) nofun⟩

/-- A move that does not end the run either changes nothing or leaves the core busy, as it was. -/
theorem CoreState.SequencerMove.eq_or_busy (hmove : c.SequencerMove d) (hrun : d.progress < 146) :
    d = c ∨ (c.busy = true ∧ d.busy = true) := by
  simp only [busy_iff]
  cases hmove with
  | xstep hph hcnt =>
    rcases c.xstep_pair hcnt with ⟨-, hph', -⟩ | ⟨-, hph', -⟩
    · exact .inr ⟨.inl hph, .inr (.inl hph')⟩
    · exact .inr ⟨.inl hph, .inl (hph'.trans hph)⟩
  | hinit hph => exact .inr ⟨.inr (.inl hph), .inr (.inr (.inl rfl))⟩
  | round f k hph hcnt =>
    rcases c.roundStep_pair f k hcnt with ⟨-, hph', -⟩ | ⟨-, hph', -⟩
    · exact .inr ⟨.inr (.inr (.inl hph)), .inr (.inr (.inr hph'))⟩
    · exact .inr ⟨.inr (.inr (.inl hph)), .inr (.inr (.inl (hph'.trans hph)))⟩
  | fin hph hcnt => exact absurd hrun (lt_irrefl 146)
  | rest hph => exact .inl rfl

/-- The host does not see a move that does not end the run. -/
theorem CoreState.SequencerMove.sameView (hmove : c.SequencerMove d) (hrun : d.progress < 146) : c.sameView d := by
  rcases hmove.eq_or_busy hrun with rfl | ⟨hc, hd⟩
  · exact .refl _
  · exact sameView_of_busy hc hd hmove.ecause_eq.symm hmove.len_eq.symm

theorem CoreState.sameView.symm (h : c.sameView d) : d.sameView c := by
  obtain ⟨hbusy, hdone, herr, hecause, hlen, hwords⟩ := h
  exact ⟨hbusy.symm, hdone.symm, herr.symm, hecause.symm, hlen.symm, fun hd => (hwords (hdone.trans hd)).symm⟩

theorem CoreState.sameView.trans {e : CoreState} (h : c.sameView d) (h' : d.sameView e) : c.sameView e := by
  obtain ⟨hbusy, hdone, herr, hecause, hlen, hwords⟩ := h
  obtain ⟨hbusy', hdone', herr', hecause', hlen', hwords'⟩ := h'
  exact ⟨hbusy.trans hbusy', hdone.trans hdone', herr.trans herr', hecause.trans hecause', hlen.trans hlen',
    fun hc => (hwords hc).trans (hwords' (hdone ▸ hc))⟩

/-- Two alike cores of which neither ends its run within `n` moves. -/
structure CoreState.AlikeFor (n : Nat) (c d : CoreState) : Prop where
  alike : c.Alike d
  left : c.progress + n < 146
  right : d.progress + n < 146

/-- Each core by a move of its own: both runs are one move nearer to their end. -/
theorem CoreState.AlikeFor.sequencer (h : c.AlikeFor (n + 1) d) (hc : c.SequencerMove c') (hd : d.SequencerMove d') :
    c'.AlikeFor n d' := by
  have hleft := h.left
  have hright := h.right
  have hc' := hc.progress_le
  have hd' := hd.progress_le
  have hview : c'.sameView d' := (hc.sameView (by omega)).symm.trans (h.alike.view.trans (hd.sameView (by omega)))
  exact ⟨⟨hc.pairLegal h.alike.legal, hd.pairLegal h.alike.legal', hview⟩, by omega, by omega⟩

theorem CoreState.AlikeFor.reset (h : c.AlikeFor n d) : CoreState.reset.AlikeFor n CoreState.reset :=
  have hn : CoreState.reset.progress + n < 146 := (Nat.add_le_add_right (Nat.zero_le _) n).trans_lt h.left
  ⟨.reset, hn, hn⟩

/-- The turn is one that the host gets a response to: a frame (R72). -/
def Turn.isFrame (x : Turn) : Bool := decide (x ≠ .sequencer ∧ x ≠ .reset)

theorem progress_le_of_step_command {c : Frame} (hs : s.nextTurn = .command c) (hstep : step s = .next t) :
    t.core.progress ≤ s.core.progress := by
  obtain ⟨u, hu, st, data, d, rfl, -, hmove⟩ := step_answers hs
  cases hu.symm.trans hstep
  exact hmove.progress_le

/-- One turn from states that stay alike for the turns to come: they go on, with the same response if the turn is a frame. -/
theorem step_alikeFor {x : Turn} (hs : s.turns = x :: ts) (hs' : s'.turns = x :: ts)
    (h : s.core.AlikeFor ((x :: ts).count .sequencer) s'.core) :
    ∃ t t' answers, step s = .next t ∧ step s' = .next t' ∧ t.turns = ts ∧ t'.turns = ts ∧
      t.responses = answers ++ s.responses ∧ t'.responses = answers ++ s'.responses ∧
      answers.length = [x].countP Turn.isFrame ∧ t.core.AlikeFor (ts.count .sequencer) t'.core := by
  have hnext : s.nextTurn = x := by simp only [State.nextTurn, hs]
  have hnext' : s'.nextTurn = x := by simp only [State.nextTurn, hs']
  have htail : s.takeTurn.turns = ts := by simp [hs]
  have htail' : s'.takeTurn.turns = ts := by simp [hs']
  cases x with
  | command c =>
    rw [List.count_cons_of_ne (by simp)] at h
    obtain ⟨t, t', ht, ht', hans⟩ := step_command_alike hnext hnext' h.alike
    have hprogress := progress_le_of_step_command hnext ht
    have hprogress' := progress_le_of_step_command hnext' ht'
    obtain ⟨st, data, d, d', rfl, rfl, halike⟩ := hans
    exact ⟨_, _, [reply st data], ht, ht', htail, htail', rfl, rfl, rfl, halike,
      (Nat.add_le_add_right hprogress _).trans_lt h.left, (Nat.add_le_add_right hprogress' _).trans_lt h.right⟩
  | sequencer =>
    rw [List.count_cons_self] at h
    obtain ⟨d, hd, hmove⟩ := step_sequencer hnext h.alike.legal
    obtain ⟨d', hd', hmove'⟩ := step_sequencer hnext' h.alike.legal'
    exact ⟨_, _, [], hd, hd', htail, htail', rfl, rfl, rfl, h.sequencer hmove hmove'⟩
  | reset =>
    rw [List.count_cons_of_ne (by decide)] at h
    exact ⟨_, _, [], step_reset hnext, step_reset hnext', htail, htail', rfl, rfl, rfl, h.reset⟩

theorem run_succ_of_step (h : step s = .next t) (n : Nat) : Host.Core.run core (n + 1) s = Host.Core.run core n t := by
  have hcore : core.step s = .next t := h
  simp only [Host.Core.run, hcore]

/-- All the turns from states that stay alike for them: by induction, one turn after the other, the newest response first. -/
theorem run_alikeFor (hs : s.turns = ts) (hs' : s'.turns = ts) (h : s.core.AlikeFor (ts.count .sequencer) s'.core) :
    ∃ t t' answers, Host.Core.run core ts.length s = .next t ∧ Host.Core.run core ts.length s' = .next t' ∧
      t.responses = answers ++ s.responses ∧ t'.responses = answers ++ s'.responses ∧
      answers.length = ts.countP Turn.isFrame ∧ t.core.sameView t'.core := by
  induction ts generalizing s s' with
  | nil => exact ⟨s, s', [], rfl, rfl, rfl, rfl, rfl, h.alike.view⟩
  | cons x ts ih =>
    obtain ⟨u, u', first, hu, hu', hturns, hturns', hresp, hresp', hfirst, halike⟩ := step_alikeFor hs hs' h
    obtain ⟨t, t', later, ht, ht', hlater, hlater', hcount, hview⟩ := ih hturns hturns' halike
    refine ⟨t, t', later ++ first, (run_succ_of_step hu _).trans ht, (run_succ_of_step hu' _).trans ht',
      ?_, ?_, ?_, hview⟩
    · rw [hlater, hresp, List.append_assoc]
    · rw [hlater', hresp', List.append_assoc]
    · rw [List.length_append, hcount, hfirst, Nat.add_comm, ← List.countP_append, List.singleton_append]

/-- In `(IDLE, 0)` the cause and `LEN` are all that the host sees, and no move of a run has been taken. -/
theorem CoreState.alikeFor_of_idle (hc : c.at .idle 0) (hd : d.at .idle 0) (hecause : c.ecause = d.ecause)
    (hlen : c.len = d.len) (hn : n < 146) : c.AlikeFor n d := by
  obtain ⟨hph, hcnt⟩ := hc
  obtain ⟨hph', hcnt'⟩ := hd
  have hview : c.sameView d := by
    simp [sameView, busy, done, err, hph, hph', hecause, hlen]
  refine ⟨⟨pairLegal_of_zero (by simp [hph]) hcnt, pairLegal_of_zero (by simp [hph']) hcnt', hview⟩, ?_, ?_⟩
  · simpa [progress, hph] using hn
  · simpa [progress, hph'] using hn

/-- Settles O46: two idle cores with the same cause and length stay alike for fewer than the 146 moves of a run. -/
theorem messageIsHiddenUntilDone : Obligations.MessageIsHiddenUntilDone := by
  intro s s' ts hidle hidle' hecause hlen hcount
  have halike : s.core.AlikeFor (ts.count .sequencer) s'.core :=
    CoreState.alikeFor_of_idle hidle hidle' hecause hlen hcount
  exact run_alikeFor (s := { s with turns := ts }) (s' := { s' with turns := ts }) rfl rfl halike

end Sys2Proof.Machine
end

section
/-! Turns of the host, from the front of the turn list: what a frame does, and where it changes no core state
(spec/20_memory.md R60, R61, spec/30_encoding.md R76, R77). -/

namespace Sys2Proof.Machine

variable {s done : State} {x : Turn} {rest : List Turn}

theorem State.nextTurn_of_turns (h : s.turns = x :: rest) : s.nextTurn = x := by
  simp only [nextTurn, h]

theorem State.takeTurn_of_turns (h : s.turns = x :: rest) : s.takeTurn = { s with turns := rest } := by
  simp only [takeTurn, h, List.tail_cons]

/-- Settles O7: the frame spells the command, so of the two things a frame can do only the first is left. -/
theorem stepRunsTheDecodedCommand : Obligations.StepRunsTheDecodedCommand := by
  intro s c rest i hturns hi
  rcases step_command_cases (State.nextTurn_of_turns hturns) with ⟨j, hj, -, he⟩ | ⟨⟨why, hw⟩, -⟩
  · cases hj.symm.trans hi
    rw [he, State.takeTurn_of_turns hturns]
  · cases hw.symm.trans hi

/-- Settles O40: a command frame is answered, the sequencer has a step or none at a legal pair, and reset always goes on. -/
theorem noStepStopsUnderTheInvariant : Obligations.NoStepStopsUnderTheInvariant := by
  rintro s ⟨hcore, -⟩
  cases hturn : s.nextTurn with
  | command c =>
    obtain ⟨t, ht, -⟩ := step_answers hturn
    exact ⟨t, ht⟩
  | sequencer =>
    obtain ⟨d, hd, -⟩ := step_sequencer hturn hcore.pair
    exact ⟨_, hd⟩
  | reset => exact ⟨_, step_reset hturn⟩

/-! ## Commands that only answer -/

/-- From `s` a command leads to `t` by its response alone: the core is as it was. -/
def State.OnlyAnswers (s t : State) : Prop := ∃ st data, t = s.respond st data

/-- A gated command only answers where its own rule, in its phase, only answers. -/
theorem State.onlyAnswers_whenPhase {need : Phase} (h : s.core.ph = need → s.OnlyAnswers done) :
    s.OnlyAnswers (s.whenPhase need done) := by
  rcases s.whenPhase_cases need done with ⟨-, he⟩ | ⟨-, -, he⟩ | ⟨-, -, hph, he⟩ | ⟨-, -, -, he⟩ <;> rw [he]
  · exact ⟨.refused, 0, rfl⟩
  · exact ⟨.invalidData, 0, rfl⟩
  · exact h hph
  · exact ⟨.refused, 0, rfl⟩

theorem State.onlyAnswers_readOutput (view : Option Word) (s : State) : s.OnlyAnswers (s.readOutput view) := by
  rcases s.readOutput_cases view with ⟨-, he⟩ | ⟨data, -, he⟩ <;> rw [he]
  · exact ⟨.illegal, 0, rfl⟩
  · exact onlyAnswers_whenPhase fun _ => ⟨.ok, data, rfl⟩

/-- Outside `IDLE` every command but `CLR` only answers. -/
theorem exec_onlyAnswers {i : Instr} (hi : i.isCommand = true) (hclr : i ≠ .clr) (hph : s.core.ph ≠ .idle) :
    ∃ t, exec i s = .next t ∧ s.OnlyAnswers t := by
  have hgated : ∀ done, s.OnlyAnswers (s.whenPhase .idle done) := fun _ =>
    State.onlyAnswers_whenPhase fun hidle => absurd hidle hph
  cases i with
  | nop => exact ⟨_, exec_nop s, .ok, 0, rfl⟩
  | clr => exact absurd rfl hclr
  | pushb b => exact ⟨_, exec_pushb b s, hgated _⟩
  | pushw w => exact ⟨_, exec_pushw w s, hgated _⟩
  | start => exact ⟨_, exec_start s, hgated _⟩
  | stat => exact ⟨_, exec_stat s, .ok, _, rfl⟩
  | rdb k => exact ⟨_, exec_rdb k s, s.onlyAnswers_readOutput _⟩
  | rdw k => exact ⟨_, exec_rdw k s, s.onlyAnswers_readOutput _⟩
  | rdh k => exact ⟨_, exec_rdh k s, s.onlyAnswers_readOutput _⟩
  | xstep | hinit | rstep1 | rstep2 | rstep3 | rstep4 | fin => cases hi

/-- Settles O43: a legal frame other than `CLR` only answers outside `IDLE`, and so does an illegal one everywhere. -/
theorem commandsOutsideIdleChangeNothing : Obligations.CommandsOutsideIdleChangeNothing := by
  intro s c rest hturns hph hclr
  have htail : s.takeTurn.turns = rest := by rw [State.takeTurn_of_turns hturns]
  rcases step_command_cases (State.nextTurn_of_turns hturns) with ⟨i, hd, hi, he⟩ | ⟨-, he⟩
  · obtain ⟨_, hexec, st, data, rfl⟩ := exec_onlyAnswers (s := s.takeTurn) hi (fun h => hclr (h ▸ hd)) hph
    exact ⟨_, he.trans hexec, rfl, htail⟩
  · exact ⟨_, he, rfl, htail⟩

end Sys2Proof.Machine
end

section
/-! The index bound of a micro-operation (spec/20_memory.md R58): what an index above it does, and that no sequencer word
selects one (spec/30_encoding.md R78). -/

namespace Sys2Proof

variable {i : Instr}

/-! ## What the sequencer word selects is well formed -/

theorem wellFormed_of_decodeRound {t : Nat} (h : decodeRound t = .instr i) : i.wellFormed = true := by
  unfold decodeRound at h
  split_ifs at h with h1 h2 h3 h4 <;> cases h
  · exact decide_eq_true h1
  · exact decide_eq_true ⟨by omega, h2⟩
  · exact decide_eq_true ⟨by omega, h3⟩
  · exact decide_eq_true ⟨by omega, h4⟩

theorem decodeAtZero_eq_instr {cnt : Nat} {d : Decoded} : decodeAtZero cnt d = .instr i ↔ cnt = 0 ∧ d = .instr i := by
  unfold decodeAtZero
  split <;> simp_all

theorem wellFormed_of_decodePhase {ph : BitVec 3} {cnt : Nat} (h : decodePhase ph cnt = .instr i) :
    i.wellFormed = true := by
  unfold decodePhase at h
  split_ifs at h with hexpand hcnt hinit hround hfinal hunreached
  · cases h
    exact decide_eq_true hcnt
  · obtain ⟨-, hd⟩ := decodeAtZero_eq_instr.1 h
    cases hd
    rfl
  · exact wellFormed_of_decodeRound h
  · obtain ⟨-, hd⟩ := decodeAtZero_eq_instr.1 h
    cases hd
    rfl
  · obtain ⟨-, hd⟩ := decodeAtZero_eq_instr.1 h
    cases hd

theorem wellFormed_of_decodeSeq {q : SeqWord} (h : decodeSeq q = .instr i) : i.wellFormed = true :=
  wellFormed_of_decodePhase h

end Sys2Proof

namespace Sys2Proof.Machine

/-- A micro-operation with an index above the last word enters `ERROR` with cause `INTERNAL` (R58, R224). -/
theorem State.microOp_of_outside {top : Nat} (inRange : Bool) (s : State) (after : CoreState) (h : 255 < top) :
    s.microOp top inRange after =
      .next { s with core := { s.core with ph := .error, cnt := 0, ecause := .internal } } := by
  rcases s.microOp_cases top inRange after with ⟨-, he⟩ | ⟨hin, -⟩ | ⟨hin, -⟩
  · exact he
  · omega
  · omega

/-- Settles O31: an index above 255 leads to the error entry before anything else, and the steps that a sequencer word
selects are well formed. -/
theorem internalAccessErrorIsRaisedAndUnreachable : Obligations.InternalAccessErrorIsRaisedAndUnreachable := by
  refine ⟨fun s n i hi => ?_, fun q n hq => ?_, fun q n i hi hq => ?_⟩
  · rcases hi with ⟨rfl, hn⟩ | ⟨rfl | rfl | rfl | rfl, hn⟩
    all_goals exact s.microOp_of_outside _ _ hn
  · have hn : n < 64 := of_decide_eq_true (wellFormed_of_decodeSeq hq)
    omega
  · have hwf := wellFormed_of_decodeSeq hq
    rcases hi with rfl | rfl | rfl | rfl <;> have hn := of_decide_eq_true hwf <;> omega

end Sys2Proof.Machine
end

section
/-! The loader's append on the registers (spec/41_buffer_loader.md R122, R123): one append of many bytes is many appends of
one byte (spec/20_memory.md R54). -/

namespace Sys2Proof.Machine

/-- `MemWrite` of two byte strings, the second behind the first, is one `MemWrite`. -/
theorem Memory.writeBytes_append (m : Memory) (a : Nat) (bs bs' : List Byte) :
    m.writeBytes a (bs ++ bs') = (m.writeBytes a bs).writeBytes (a + bs.length) bs' := by
  induction bs generalizing m a with
  | nil => rfl
  | cons b bs ih =>
    rw [List.cons_append, writeBytes_cons, writeBytes_cons, ih, List.length_cons, Nat.add_assoc, Nat.add_comm 1]

/-- The registers after an append of the bytes `bs` that fit (`State.whenPhase_appendBytes` ties it to the commands). -/
def CoreState.load (bs : List Byte) (c : CoreState) : CoreState :=
  { c with
    buf := c.buf.writeBytes c.len.toNat bs
    len := c.len + BitVec.ofNat 11 bs.length }

variable {c : CoreState} {bs bs' : List Byte}

@[simp] theorem CoreState.load_ph : (c.load bs).ph = c.ph := rfl

@[simp] theorem CoreState.load_cnt : (c.load bs).cnt = c.cnt := rfl

theorem CoreState.toNat_load_len (h : c.len.toNat + bs.length ≤ 1024) :
    (c.load bs).len.toNat = c.len.toNat + bs.length :=
  toNat_len_append h

theorem CoreState.load_load (h : c.len.toNat + bs.length ≤ 1024) : (c.load bs).load bs' = c.load (bs ++ bs') := by
  have hbuf : (c.load bs).buf = c.buf.writeBytes c.len.toNat bs := rfl
  have hlen : (c.load bs).len = c.len + BitVec.ofNat 11 bs.length := rfl
  rw [load, toNat_load_len h, hbuf, ← Memory.writeBytes_append, hlen, BitVec.add_assoc, ← BitVec.ofNat_add,
    ← List.length_append]
  rfl

/-- In `(IDLE, 0)` a push of bytes that fit loads them and answers `OK`. -/
theorem State.whenPhase_appendBytes {s : State} (hidle : s.core.at .idle 0) (hfit : s.core.len.toNat + bs.length ≤ 1024) :
    s.whenPhase .idle (s.appendBytes bs) = (s.withCore (s.core.load bs)).respond .ok 0 := by
  obtain ⟨hph, hcnt⟩ := hidle
  have hpair : s.core.pairLegal = true := CoreState.pairLegal_of_zero (by simp [hph]) hcnt
  rw [State.whenPhase_of_phase (need := .idle) hpair nofun hph]
  rcases s.appendBytes_cases bs with ⟨-, he⟩ | ⟨hover, -⟩
  · exact he
  · omega

theorem exec_pushb_of_fits {s : State} (b : Byte) (hidle : s.core.at .idle 0) (hfit : s.core.len.toNat + 1 ≤ 1024) :
    ∃ t, exec (.pushb b) s = .next t ∧ t.core = s.core.load [b] :=
  ⟨_, (exec_pushb b s).trans (congrArg _ (State.whenPhase_appendBytes hidle hfit)), rfl⟩

theorem exec_pushw_of_fits {s : State} (w : Word) (hidle : s.core.at .idle 0) (hfit : s.core.len.toNat + 4 ≤ 1024) :
    ∃ t, exec (.pushw w) s = .next t ∧ t.core = s.core.load (leBytes w) :=
  ⟨_, (exec_pushw w s).trans (congrArg _ (State.whenPhase_appendBytes hidle hfit)), rfl⟩

/-- One more `PUSHB` after the bytes `bs` have been loaded, while it fits. -/
theorem exec_pushb_of_loaded {s : State} (b : Byte) (hload : s.core = c.load bs) (hidle : c.at .idle 0)
    (hfit : c.len.toNat + (bs.length + 1) ≤ 1024) :
    ∃ t, exec (.pushb b) s = .next t ∧ t.core = c.load (bs ++ [b]) := by
  have hlen : s.core.len.toNat = c.len.toNat + bs.length := by rw [hload, CoreState.toNat_load_len (by omega)]
  obtain ⟨t, ht, htc⟩ := exec_pushb_of_fits (s := s) b (hload ▸ hidle) (by omega)
  exact ⟨t, ht, by rw [htc, hload, CoreState.load_load (by omega)]⟩

/-- A word loaded at a multiple of 4 is a word of the buffer (R54). -/
theorem CoreState.word_load_leBytes (v : Word) (hwf : c.buf.wf = true) (hfit : c.len.toNat + 4 ≤ 1024)
    (halign : 4 ∣ c.len.toNat) : (c.load (leBytes v)).buf.word (c.len.toNat / 4) = v := by
  have hwrite : (c.load (leBytes v)).buf = c.buf.writeWord (c.len.toNat / 4) v := by
    rw [Memory.writeWord, Nat.mul_div_cancel' halign]
    rfl
  rw [hwrite]
  exact Memory.word_writeWord_self hwf (by omega)

/-- Settles O16: the four bytes are loaded one behind the other, which is the load of the word's bytes at once. -/
theorem pushwEqualsFourPushb : Obligations.PushwEqualsFourPushb := by
  intro v s hidle hwf hlen
  obtain ⟨t, ht, htc⟩ := exec_pushw_of_fits (s := s) v hidle (by omega)
  obtain ⟨t1, ht1, h1⟩ := exec_pushb_of_fits (s := s) (v.extractLsb' 0 8) hidle (by omega)
  obtain ⟨t2, ht2, h2⟩ := exec_pushb_of_loaded (v.extractLsb' 8 8) h1 hidle (by simp; omega)
  obtain ⟨t3, ht3, h3⟩ := exec_pushb_of_loaded (v.extractLsb' 16 8) h2 hidle (by simp; omega)
  obtain ⟨t4, ht4, h4⟩ := exec_pushb_of_loaded (v.extractLsb' 24 8) h3 hidle (by simp; omega)
  refine ⟨t, t1, t2, t3, t4, ht, ht1, ht2, ht3, ht4, htc.trans h4.symm, fun halign => ?_⟩
  rw [htc]
  exact CoreState.word_load_leBytes v hwf (by omega) halign

end Sys2Proof.Machine
end

section
/-! The encoder and the decoder are inverse to each other (spec/30_encoding.md R74, R76, R78, R79). -/

namespace Sys2Proof

variable {i : Instr} {c : Frame} {q : SeqWord}

/-! ## A word is made of its fields -/

theorem toNat_frameOp (c : Frame) : (frameOp c).toNat = c.toNat / 2 ^ 44 := by
  have := c.isLt
  rw [frameOp, BitVec.extractLsb'_toNat, Nat.shiftRight_eq_div_pow]
  omega

theorem toNat_frameRsv (c : Frame) : (frameRsv c).toNat = c.toNat / 2 ^ 40 % 16 := by
  rw [frameRsv, BitVec.extractLsb'_toNat, Nat.shiftRight_eq_div_pow]

theorem toNat_frameIdx (c : Frame) : (frameIdx c).toNat = c.toNat / 2 ^ 32 % 256 := by
  rw [frameIdx, BitVec.extractLsb'_toNat, Nat.shiftRight_eq_div_pow]

theorem toNat_frameData (c : Frame) : (frameData c).toNat = c.toNat % 2 ^ 32 := by
  rw [frameData, BitVec.extractLsb'_toNat, Nat.shiftRight_zero]

theorem packFrame_fields (h : frameRsv c = 0) : packFrame (frameOp c) (frameIdx c) (frameData c) = c := by
  have hrsv : c.toNat / 2 ^ 40 % 16 = 0 := by rw [← toNat_frameRsv, h]; rfl
  apply BitVec.eq_of_toNat_eq
  rw [packFrame_toNat, toNat_frameOp, toNat_frameIdx, toNat_frameData]
  omega

theorem packSeq_fields (q : SeqWord) : packSeq (q.extractLsb' 7 3) (q.extractLsb' 0 7) = q :=
  (BitVec.extractLsb'_append_extractLsb'_eq_extractLsb' rfl).trans BitVec.extractLsb'_eq_self

/-! ## Decoding what was encoded -/

/-- The operand of `PUSHB` (R74), 24 zero bits and the byte, gives the byte back. -/
theorem decodeOp_pushb (b : Byte) : decodeOp 2 0 (0#24 ++ b) = .instr (.pushb b) := by
  have hhigh : (0#24 ++ b).extractLsb' 8 24 = 0#24 := BitVec.extractLsb'_append_eq_left
  have hlow : (0#24 ++ b).extractLsb' 0 8 = b := BitVec.extractLsb'_append_eq_right
  simp [decodeOp, hhigh, hlow]

/-- An output read with an admitted index (R74). -/
theorem decodeRead_ofNat (mk : Nat → Instr) {bound k : Nat} (hbound : bound ≤ 256) (hk : k < bound) :
    decodeRead mk bound (BitVec.ofNat 8 k) 0 = .instr (mk k) := by
  have hidx : (BitVec.ofNat 8 k).toNat = k := by rw [BitVec.toNat_ofNat]; omega
  rw [decodeRead, if_neg (not_not_intro rfl), hidx, if_pos hk]

/-- A micro-operation whose step is `CNT` (R78). -/
theorem decodeSeq_packSeq_ofNat (ph : BitVec 3) {n : Nat} (hn : n < 128) :
    decodeSeq (packSeq ph (BitVec.ofNat 7 n)) = decodePhase ph n := by
  rw [decodeSeq_packSeq, BitVec.toNat_ofNat, Nat.mod_eq_of_lt hn]

/-- In phase `ROUND` the step is the round (R78). -/
theorem decodeSeq_round {t : Nat} (ht : t < 80) : decodeSeq (packSeq 3 (BitVec.ofNat 7 t)) = decodeRound t :=
  decodeSeq_packSeq_ofNat 3 (by omega)

theorem decode_encode (h : i.wellFormed = true) : decode (encode i) = .instr i := by
  cases i with
  | nop | clr | start | stat => exact decodeFrame_packFrame _ _ _
  | pushb b => exact (decodeFrame_packFrame _ _ _).trans (decodeOp_pushb b)
  | pushw w => exact decodeFrame_packFrame _ _ _
  | rdb k => exact (decodeFrame_packFrame _ _ _).trans (decodeRead_ofNat .rdb (by decide) (of_decide_eq_true h))
  | rdw k => exact (decodeFrame_packFrame _ _ _).trans (decodeRead_ofNat .rdw (by decide) (of_decide_eq_true h))
  | rdh k => exact (decodeFrame_packFrame _ _ _).trans (decodeRead_ofNat .rdh (by decide) (of_decide_eq_true h))
  | xstep n =>
    have hn : n < 64 := of_decide_eq_true h
    exact (decodeSeq_packSeq_ofNat 1 (by omega)).trans (if_pos hn)
  | hinit | fin => exact decodeSeq_packSeq _ _
  | rstep1 t =>
    have ht : t < 20 := of_decide_eq_true h
    exact (decodeSeq_round (by omega)).trans (if_pos ht)
  | rstep2 t =>
    have ht : 20 ≤ t ∧ t < 40 := of_decide_eq_true h
    exact (decodeSeq_round (by omega)).trans (by rw [decodeRound, if_neg (by omega), if_pos ht.2])
  | rstep3 t =>
    have ht : 40 ≤ t ∧ t < 60 := of_decide_eq_true h
    exact (decodeSeq_round (by omega)).trans (by rw [decodeRound, if_neg (by omega), if_neg (by omega), if_pos ht.2])
  | rstep4 t =>
    have ht : 60 ≤ t ∧ t < 80 := of_decide_eq_true h
    exact (decodeSeq_round ht.2).trans
      (by rw [decodeRound, if_neg (by omega), if_neg (by omega), if_neg (by omega), if_pos ht.2])

/-- Settles O1: one case per instruction, its operand in the range of its row. -/
theorem decodeOfEncodeIsTheInstruction : Obligations.DecodeOfEncodeIsTheInstruction :=
  fun _ h => decode_encode h

/-! ## Encoding what was decoded -/

/-- A word whose high 24 bits are zero is its low byte. -/
theorem zero_append_extractLsb' {data : Word} (h : data.extractLsb' 8 24 = 0) : 0#24 ++ data.extractLsb' 0 8 = data := by
  have hhigh : 0#24 = data.extractLsb' (0 + 8) 24 := h.symm
  rw [hhigh, BitVec.extractLsb'_append_extractLsb'_eq_extractLsb' rfl]
  exact BitVec.extractLsb'_eq_self

section
variable {op : BitVec 4} {idx : Byte} {data : Word}

/-- The frame of a command without operands has neither index nor data. -/
theorem encode_of_decodeBare {j : Instr} (hwf : j.wellFormed = true) (henc : encode j = .frame (packFrame op 0 0))
    (h : decodeBare j idx data = .instr i) : i.wellFormed = true ∧ encode i = .frame (packFrame op idx data) := by
  obtain ⟨rfl, rfl, rfl⟩ := (decodeBare_eq_instr idx data).1 h
  exact ⟨hwf, henc⟩

/-- The frame of an output read has an index in range and no data. -/
theorem encode_of_decodeRead {mk : Nat → Instr} {bound : Nat} (hwf : ∀ k, (mk k).wellFormed = decide (k < bound))
    (henc : ∀ k, encode (mk k) = .frame (packFrame op (BitVec.ofNat 8 k) 0))
    (h : decodeRead mk bound idx data = .instr i) : i.wellFormed = true ∧ encode i = .frame (packFrame op idx data) := by
  obtain ⟨rfl, rfl, hlt⟩ := (decodeRead_eq_instr idx data).1 h
  exact ⟨(hwf _).trans (decide_eq_true hlt), by rw [henc, BitVec.ofNat_toNat, BitVec.setWidth_eq]⟩

/-- The opcode map, row by row (R74). -/
theorem encode_of_decodeOp (h : decodeOp op idx data = .instr i) :
    i.wellFormed = true ∧ encode i = .frame (packFrame op idx data) := by
  unfold decodeOp at h
  split_ifs at h with hnop hclr hpushb hfit hpushw hidx hstart hstat hrdb hrdw hrdh <;> subst op
  · exact encode_of_decodeBare rfl rfl h
  · exact encode_of_decodeBare rfl rfl h
  · cases h
    obtain ⟨rfl, hhigh⟩ := hfit
    exact ⟨rfl, by rw [encode, zero_append_extractLsb' hhigh]; rfl⟩
  · cases h
    subst hidx
    exact ⟨rfl, rfl⟩
  · exact encode_of_decodeBare rfl rfl h
  · exact encode_of_decodeBare rfl rfl h
  · exact encode_of_decodeRead (fun _ => rfl) (fun _ => rfl) h
  · exact encode_of_decodeRead (fun _ => rfl) (fun _ => rfl) h
  · exact encode_of_decodeRead (fun _ => rfl) (fun _ => rfl) h

end

theorem encode_of_decodeFrame (h : decodeFrame c = .instr i) : i.wellFormed = true ∧ encode i = .frame c := by
  unfold decodeFrame at h
  split_ifs at h with hrsv
  have hop := encode_of_decodeOp h
  rwa [packFrame_fields hrsv] at hop

theorem encode_of_decodeRound {t : Nat} (h : decodeRound t = .instr i) : encode i = .seq (packSeq 3 (BitVec.ofNat 7 t)) := by
  unfold decodeRound at h
  split_ifs at h <;> cases h <;> rfl

theorem encode_of_decodePhase {ph : BitVec 3} {cnt : BitVec 7} (h : decodePhase ph cnt.toNat = .instr i) :
    encode i = .seq (packSeq ph cnt) := by
  have hcnt : BitVec.ofNat 7 cnt.toNat = cnt := (BitVec.ofNat_toNat 7 cnt).trans (BitVec.setWidth_eq cnt)
  have hzero : ∀ {d}, decodeAtZero cnt.toNat d = .instr i → d = .instr i ∧ cnt = 0 := fun hd => by
    obtain ⟨hcnt, hd⟩ := decodeAtZero_eq_instr.1 hd
    exact ⟨hd, BitVec.eq_of_toNat_eq hcnt⟩
  unfold decodePhase at h
  split_ifs at h with hexpand hlt hinit hround hfinal hunreached
  · cases h
    rw [encode, hcnt, hexpand]
    rfl
  · obtain ⟨hd, rfl⟩ := hzero h
    cases hd
    rw [hinit]
    rfl
  · rw [encode_of_decodeRound h, hcnt, hround]
    rfl
  · obtain ⟨hd, rfl⟩ := hzero h
    cases hd
    rw [hfinal]
    rfl
  · cases (hzero h).1

theorem encode_of_decodeSeq (h : decodeSeq q = .instr i) : encode i = .seq q := by
  rw [encode_of_decodePhase h, packSeq_fields]

/-- Settles O2: by the fields of the word, in the rows of the two tables. -/
theorem decodedWordIsTheEncoding : Obligations.DecodedWordIsTheEncoding := by
  intro w i h
  cases w with
  | frame c => exact encode_of_decodeFrame h
  | seq q => exact ⟨wellFormed_of_decodeSeq h, encode_of_decodeSeq h⟩

end Sys2Proof
end

section
/-! The opcode map and the sequencer words as numbers (spec/30_encoding.md R74, R78, R79), and the illegal frames (R76). -/

namespace Sys2Proof

/-! ## The tables -/

/-- The frame of an output read, as a number (R74). -/
theorem toNat_packFrame_ofNat (op : BitVec 4) {k : Nat} (hk : k < 256) :
    (packFrame op (BitVec.ofNat 8 k) 0).toNat = op.toNat * 2 ^ 44 + k * 2 ^ 32 := by
  rw [packFrame_toNat, BitVec.toNat_ofNat, Nat.mod_eq_of_lt hk]
  exact Nat.add_zero _

/-- Settles O4: the frame is packed from the fields of its row. -/
theorem framePatternsOfTheCommands : Obligations.FramePatternsOfTheCommands := by
  refine ⟨rfl, rfl, fun b => ?_, fun w => ?_, rfl, rfl, fun k hk => ?_, fun k hk => ?_, fun k hk => ?_⟩
  · refine (packFrame_toNat 2 0 (0#24 ++ b)).trans (congrArg (0x200000000000 + ·) ?_)
    rw [BitVec.toNat_append, BitVec.toNat_zero, Nat.zero_shiftLeft, Nat.zero_or]
  · exact packFrame_toNat 3 0 w
  · exact toNat_packFrame_ofNat 6 (by omega)
  · exact toNat_packFrame_ofNat 7 (by omega)
  · exact toNat_packFrame_ofNat 8 (by omega)

/-- The values of the field `PH` (R26): two phases with a range of steps, the unused code, the phases with one step. -/
theorem phaseField_cases (ph : BitVec 3) :
    ph = 1 ∨ ph = 3 ∨ ph = 7 ∨ (ph = 0 ∨ ph = 2 ∨ ph = 4 ∨ ph = 5 ∨ ph = 6) := by
  revert ph
  decide

/-- Settles O5: by the phase, and in each phase by the bounds that its row sets to `CNT`. -/
theorem sequencerWordSelectsTheMicroOperation : Obligations.SequencerWordSelectsTheMicroOperation := by
  intro q
  have hcnt : (q.extractLsb' 0 7).toNat < 128 := BitVec.isLt _
  have hq : q.toNat = (q.extractLsb' 7 3).toNat * 2 ^ 7 + (q.extractLsb' 0 7).toNat := by
    rw [← packSeq_toNat, packSeq_fields]
  rw [decodeSeq]
  generalize (q.extractLsb' 0 7).toNat = n at hcnt hq ⊢
  generalize q.extractLsb' 7 3 = ph at hq ⊢
  rcases phaseField_cases ph with rfl | rfl | rfl | hzero
  · change _ = 1 * 2 ^ 7 + n at hq
    change (if n < 64 then Decoded.instr (.xstep n) else .rejected .unreachedSequencerWord) = _
    rw [show q.toNat - 0x080 = n by omega]
    rcases Nat.lt_or_ge n 64 with h | h <;> simp (disch := omega) only [if_pos, if_neg]
  · change _ = 3 * 2 ^ 7 + n at hq
    change decodeRound n = _
    rw [show q.toNat - 0x180 = n by omega, decodeRound]
    have hrow : n < 20 ∨ (20 ≤ n ∧ n < 40) ∨ (40 ≤ n ∧ n < 60) ∨ (60 ≤ n ∧ n < 80) ∨ 80 ≤ n := by omega
    rcases hrow with h | h | h | h | h <;> simp (disch := omega) only [if_pos, if_neg]
  · change _ = 7 * 2 ^ 7 + n at hq
    change Decoded.rejected .unreachedSequencerWord = _
    simp (disch := omega) only [if_neg]
  · rcases hzero with rfl | rfl | rfl | rfl | rfl
    all_goals
      change decodeAtZero n _ = _
      simp only [BitVec.ofNat_eq_ofNat, BitVec.reduceToNat] at hq
      rcases Nat.eq_zero_or_pos n with h | h <;> simp (disch := omega) only [decodeAtZero, if_pos, if_neg]

/-- Settles O6: each row of the tables is met by evaluation. -/
theorem wordsOfTheTablesDecode : Obligations.WordsOfTheTablesDecode := by
  refine ⟨?_, ?_, ?_, ?_, ?_, ?_, ?_, ?_, ?_⟩ <;> decide

/-! ## The illegal frames -/

/-- The items 2 to 7 of R76 on the fields of a frame whose `RSV` is 0 (`exists_decodeOp` ties them to the opcode map). -/
def IllegalFields (op idx data : Nat) : Prop :=
  9 ≤ op ∨
    ((op = 0 ∨ op = 1 ∨ op = 4 ∨ op = 5) ∧ (idx ≠ 0 ∨ data ≠ 0)) ∨
    (op = 2 ∧ (idx ≠ 0 ∨ data / 2 ^ 8 ≠ 0)) ∨
    (op = 3 ∧ idx ≠ 0) ∨
    ((op = 6 ∨ op = 7 ∨ op = 8) ∧ data ≠ 0) ∨
    (op = 6 ∧ 20 ≤ idx) ∨ (op = 7 ∧ 5 ≤ idx) ∨ (op = 8 ∧ 40 ≤ idx)

variable {idx : Byte} {data : Word}

theorem exists_ite_instr {p : Prop} [Decidable p] {j : Instr} {why : Rejection} :
    (∃ i, (if p then Decoded.instr j else .rejected why) = .instr i) ↔ p := by
  split <;> simp_all

theorem exists_decodeBare (j : Instr) :
    (∃ i, decodeBare j idx data = .instr i) ↔ idx.toNat = 0 ∧ data.toNat = 0 := by
  rw [decodeBare, exists_ite_instr, BitVec.toNat_eq, BitVec.toNat_eq]
  rfl

theorem exists_decodeRead (mk : Nat → Instr) (bound : Nat) :
    (∃ i, decodeRead mk bound idx data = .instr i) ↔ data.toNat = 0 ∧ idx.toNat < bound := by
  simp [decodeRead_eq_instr, BitVec.toNat_eq]

/-- The values of the field `OP` with a row in the opcode map (R74), and the reserved ones. -/
theorem opField_cases (op : BitVec 4) :
    op = 0 ∨ op = 1 ∨ op = 2 ∨ op = 3 ∨ op = 4 ∨ op = 5 ∨ op = 6 ∨ op = 7 ∨ op = 8 ∨ 9 ≤ op.toNat := by
  revert op
  decide

theorem decodeOp_reserved {op : BitVec 4} (h : 9 ≤ op.toNat) : decodeOp op idx data = .rejected .reservedOpcode := by
  have hne : ∀ k : BitVec 4, k.toNat < 9 → op ≠ k := fun k hk he => absurd (he ▸ h) (by omega)
  simp [decodeOp, hne]

/-- The operand of `PUSHB` is a byte (R76 item 4). -/
theorem extractLsb'_high_eq_zero : data.extractLsb' 8 24 = 0 ↔ data.toNat / 2 ^ 8 = 0 := by
  have := data.isLt
  rw [BitVec.toNat_eq, BitVec.extractLsb'_toNat, Nat.shiftRight_eq_div_pow, Nat.mod_eq_of_lt (by omega)]
  rfl

/-- The opcode map gives an instruction exactly where none of the items holds. -/
theorem exists_decodeOp (op : BitVec 4) :
    (∃ i, decodeOp op idx data = .instr i) ↔ ¬ IllegalFields op.toNat idx.toNat data.toNat := by
  have hbare : ∀ {j : Instr}, (op = 0 ∨ op = 1 ∨ op = 4 ∨ op = 5) →
      ((∃ i, decodeBare j idx data = .instr i) ↔ ¬ IllegalFields op.toNat idx.toNat data.toNat) := fun {j} hop => by
    rw [exists_decodeBare]
    rcases hop with rfl | rfl | rfl | rfl <;> simp [IllegalFields]
  rcases opField_cases op with rfl | rfl | rfl | rfl | rfl | rfl | rfl | rfl | rfl | hop
  · exact hbare (j := .nop) (by decide)
  · exact hbare (j := .clr) (by decide)
  · refine exists_ite_instr.trans ?_
    rw [extractLsb'_high_eq_zero, BitVec.toNat_eq]
    simp [IllegalFields]
  · refine exists_ite_instr.trans ?_
    rw [BitVec.toNat_eq]
    simp [IllegalFields]
  · exact hbare (j := .start) (by decide)
  · exact hbare (j := .stat) (by decide)
  · refine (exists_decodeRead .rdb 20).trans ?_
    simp [IllegalFields]
  · refine (exists_decodeRead .rdw 5).trans ?_
    simp [IllegalFields]
  · refine (exists_decodeRead .rdh 40).trans ?_
    simp [IllegalFields]
  · simp [decodeOp_reserved hop, IllegalFields, hop]

theorem exists_decodeFrame (c : Frame) : (∃ i, decodeFrame c = .instr i) ↔
    ¬ ((frameRsv c).toNat ≠ 0 ∨ IllegalFields (frameOp c).toNat (frameIdx c).toNat (frameData c).toNat) := by
  have hrsv : (frameRsv c).toNat = 0 ↔ frameRsv c = 0 := (BitVec.toNat_eq (y := 0)).symm
  rw [decodeFrame, not_or, ← exists_decodeOp, not_not, hrsv]
  split <;> simp_all

end Sys2Proof

namespace Sys2Proof.Machine

/-- Settles O3: the frame's fields as numbers decide whether it decodes, and a frame that does not is answered `ILLEGAL`. -/
theorem illegalFramesAreTheSevenItems : Obligations.IllegalFramesAreTheSevenItems := by
  intro c
  have hlegal := exists_decodeFrame c
  rw [toNat_frameRsv, toNat_frameOp, toNat_frameIdx, toNat_frameData] at hlegal
  refine ⟨fun h => ?_, fun h => ?_⟩
  · obtain ⟨i, hi⟩ := hlegal.2 h
    exact ⟨i, hi, isCommand_of_decodeFrame hi⟩
  · have hnone : ∀ i, decodeFrame c ≠ .instr i := fun i hi => hlegal.1 ⟨i, hi⟩ h
    refine ⟨?_, fun s rest hturns => ?_⟩
    · cases hd : decodeFrame c with
      | instr i => exact absurd hd (hnone i)
      | rejected why => exact ⟨why, rfl⟩
    · rcases step_command_cases (State.nextTurn_of_turns hturns) with ⟨i, hi, -⟩ | ⟨-, he⟩
      · exact absurd hi (hnone i)
      · rw [he, State.takeTurn_of_turns hturns]
        rfl

end Sys2Proof.Machine
end

section
/-! The gate of the commands that need a phase (spec/30_encoding.md R77, R79), the one response of every frame (R72), and the
turns of the sequencer (R78). -/

namespace Sys2Proof.Machine

variable {i : Instr} {s : State} {need : Phase}

/-! ## The gated commands -/

/-- The command `i` is one that the phase gate admits to its own rule only in the phase `need`. -/
def Gated (i : Instr) (need : Phase) : Prop := ∀ s, ∃ done, exec i s = .next (s.whenPhase need done)

theorem gated_pushb (b : Byte) : Gated (.pushb b) .idle := fun s => ⟨_, exec_pushb b s⟩

theorem gated_pushw (w : Word) : Gated (.pushw w) .idle := fun s => ⟨_, exec_pushw w s⟩

theorem gated_start : Gated .start .idle := fun s => ⟨_, exec_start s⟩

theorem getElem?_eq_some_getD {α : Type} {l : List α} {k : Nat} (d : α) (hk : k < l.length) :
    l[k]? = some (l.getD k d) :=
  (List.getElem?_eq_getElem hk).trans (congrArg some (List.getD_eq_getElem l d hk).symm)

/-- With an admitted index the output reads are gated reads of a byte, a word, a character (R204 to R206). -/
theorem exec_rdb_of_lt {k : Nat} (hk : k < 20) (s : State) : exec (.rdb k) s =
    .next (s.whenPhase .done (s.respond .ok ((s.core.digestBytes.getD k 0).setWidth 32))) := by
  rw [exec_rdb, getElem?_eq_some_getD 0 (by rwa [CoreState.length_digestBytes])]
  rfl

theorem exec_rdw_of_lt {k : Nat} (hk : k < 5) (s : State) : exec (.rdw k) s =
    .next (s.whenPhase .done (s.respond .ok (s.core.digestWords.getD k 0))) := by
  rw [exec_rdw, getElem?_eq_some_getD 0 (by rwa [CoreState.length_digestWords])]
  rfl

theorem exec_rdh_of_lt {k : Nat} (hk : k < 40) (s : State) : exec (.rdh k) s =
    .next (s.whenPhase .done (s.respond .ok ((s.core.hexDigest.getD k 0).setWidth 32))) := by
  rw [exec_rdh, getElem?_eq_some_getD 0 (by rwa [CoreState.length_hexDigest])]
  rfl

theorem gated_rdb {k : Nat} (hk : k < 20) : Gated (.rdb k) .done := fun s => ⟨_, exec_rdb_of_lt hk s⟩

theorem gated_rdw {k : Nat} (hk : k < 5) : Gated (.rdw k) .done := fun s => ⟨_, exec_rdw_of_lt hk s⟩

theorem gated_rdh {k : Nat} (hk : k < 40) : Gated (.rdh k) .done := fun s => ⟨_, exec_rdh_of_lt hk s⟩

/-- Every well-formed command but `CLR`, `NOP` and `STAT` is gated. -/
theorem exists_gated (hwf : i.wellFormed = true) (hi : i.isCommand = true) (hclr : i ≠ .clr) (hnop : i ≠ .nop)
    (hstat : i ≠ .stat) : ∃ need, Gated i need := by
  cases i with
  | nop => exact absurd rfl hnop
  | clr => exact absurd rfl hclr
  | stat => exact absurd rfl hstat
  | pushb b => exact ⟨_, gated_pushb b⟩
  | pushw w => exact ⟨_, gated_pushw w⟩
  | start => exact ⟨_, gated_start⟩
  | rdb k => exact ⟨_, gated_rdb (of_decide_eq_true hwf)⟩
  | rdw k => exact ⟨_, gated_rdw (of_decide_eq_true hwf)⟩
  | rdh k => exact ⟨_, gated_rdh (of_decide_eq_true hwf)⟩
  | xstep | hinit | rstep1 | rstep2 | rstep3 | rstep4 | fin => cases hi

/-- At a pair that is no row of R27 a gated command is refused (R79). -/
theorem Gated.refused (h : Gated i need) (hpair : s.core.pairLegal = false) :
    exec i s = .next (s.respond .refused 0) := by
  obtain ⟨done, he⟩ := h s
  rw [he, State.whenPhase, if_pos hpair]

/-- In `ERROR` and in a phase other than the needed one a gated command only answers (R77). -/
theorem Gated.gatedBy (h : Gated i need) : GatedBy i need := by
  intro s hpair
  obtain ⟨done, he⟩ := h s
  rw [he]
  rcases s.whenPhase_cases need done with ⟨hpair', -⟩ | ⟨-, herr, hw⟩ | ⟨-, herr, hneed, -⟩ | ⟨-, herr, -, hw⟩
  · cases hpair.symm.trans hpair'
  · exact ⟨fun _ => hw ▸ rfl, fun h => absurd herr h⟩
  · exact ⟨fun h => absurd h herr, fun _ h => absurd hneed h⟩
  · exact ⟨fun h => absurd h herr, fun _ _ => hw ▸ rfl⟩

/-- Settles O23: `NOP`, `CLR` and `STAT` answer `OK` whatever the state is, and the other commands are gated. -/
theorem commandsAreGatedByPhase : Obligations.CommandsAreGatedByPhase := by
  refine ⟨fun s => ⟨_, _, _, exec_nop s, exec_clr s, exec_stat s, ⟨_, _, rfl, replyStatus_reply _ _⟩,
    ⟨_, _, rfl, replyStatus_reply _ _⟩, ⟨_, _, rfl, replyStatus_reply _ _⟩⟩, ?_⟩
  exact ⟨fun b => (gated_pushb b).gatedBy, fun w => (gated_pushw w).gatedBy, gated_start.gatedBy,
    fun _ hk => (gated_rdb hk).gatedBy, fun _ hk => (gated_rdw hk).gatedBy, fun _ hk => (gated_rdh hk).gatedBy⟩

/-! ## Every frame is answered once -/

theorem Status.code_le (st : Status) : st.code.toNat ≤ 3 := by
  cases st <;> decide

/-- The two fields of a response as numbers (R72). -/
theorem reply_fields (st : Status) (data : Word) :
    (reply st data).toNat / 2 ^ 32 = st.code.toNat ∧ (reply st data).toNat % 2 ^ 32 = data.toNat := by
  have := data.isLt
  rw [reply_toNat]
  omega

/-- Settles O44: a frame is taken off the list and answered with one status and its data. -/
theorem everyFrameGetsExactlyOneResponse : Obligations.EveryFrameGetsExactlyOneResponse := by
  intro s c rest hturns
  obtain ⟨_, ht, st, data, d, rfl, hdata, -⟩ := step_answers (State.nextTurn_of_turns hturns)
  rw [State.takeTurn_of_turns hturns] at ht
  obtain ⟨hst, hda⟩ := reply_fields st data
  refine ⟨_, reply st data, ht, rfl, rfl, ?_, ?_⟩
  · rw [hst]
    exact st.code_le
  · rw [hst, hda]
    intro hne
    rw [hdata fun hok => hne (hok ▸ rfl)]
    rfl

/-! ## The turns of the sequencer -/

theorem State.sequencerNext.nextTurn (h : s.sequencerNext) : s.nextTurn = .sequencer := by
  rcases h with h | ⟨rest, h⟩ <;> simp only [State.nextTurn, h]

/-- Settles O8: the sequencer word is decoded by its phase and step. -/
theorem stepRunsTheSelectedMicroOperation : Obligations.StepRunsTheSelectedMicroOperation := by
  intro s i hnext hi
  rw [CoreState.decodeSeq_seqWord] at hi
  exact step_of_decodePhase hnext.nextTurn hi

/-- Where `(PH, CNT)` is no row of R27 the sequencer word is one that is never reached (R79). -/
theorem decodeSeq_of_not_pairLegal (h : s.core.pairLegal = false) :
    decodeSeq s.core.seqWord = .rejected .unreachedSequencerWord := by
  unfold CoreState.pairLegal Decoded.isReached at h
  split at h
  · assumption
  · cases h
  · cases h

/-- Settles O10: the sequencer word is never reached, and the phase gate refuses before it looks at the phase. -/
theorem unreachedSequencerWordIsStuck : Obligations.UnreachedSequencerWordIsStuck := by
  refine fun s hpair => ⟨fun hnext => ?_, fun i hwf hi hclr hnop hstat => ?_⟩
  · simp only [step, State.fetch, hnext.nextTurn, fetchSeq, decodeSeq_of_not_pairLegal hpair]
  · obtain ⟨need, hgated⟩ := exists_gated hwf hi hclr hnop hstat
    exact hgated.refused hpair

end Sys2Proof.Machine
end

section
/-! The sequencer's turns as a function of the core (spec/42_sequencer_control.md R144, R146): a run takes 146 of them. -/

namespace Sys2Proof.Machine

variable {c : CoreState} {s : State} {n m : Nat}

/-! ## One turn -/

/-- The core after a sequencer turn at a row of R27 (`step_sequenced` ties it to the step). -/
def CoreState.sequenced (c : CoreState) : CoreState :=
  match c.ph with
  | .expand => c.xstep c.cnt.toNat
  | .init => c.hinit
  | .round => c.roundStep (Digest.mixAt c.cnt.toNat) (Digest.constAt c.cnt.toNat) c.cnt.toNat
  | .final => c.fin
  | .idle | .done | .error | .unreached => c

theorem CoreState.sequenced_expand (h : c.ph = .expand) : c.sequenced = c.xstep c.cnt.toNat := by
  simp only [sequenced, h]

theorem CoreState.sequenced_init (h : c.ph = .init) : c.sequenced = c.hinit := by
  simp only [sequenced, h]

theorem CoreState.sequenced_round (h : c.ph = .round) :
    c.sequenced = c.roundStep (Digest.mixAt c.cnt.toNat) (Digest.constAt c.cnt.toNat) c.cnt.toNat := by
  simp only [sequenced, h]

theorem CoreState.sequenced_final (h : c.ph = .final) : c.sequenced = c.fin := by
  simp only [sequenced, h]

theorem CoreState.sequenced_rest (h : c.ph = .idle ∨ c.ph = .done ∨ c.ph = .error) : c.sequenced = c := by
  rcases h with h | h | h <;> simp only [sequenced, h]

/-- The micro-operation of round `t` is the round with `f_t` and `K_t` of R181 and R182. -/
theorem exec_round {t : Nat} (ht : t < 80) (s : State) : ∃ i, decodeRound t = .instr i ∧
    exec i s = .next (s.withCore (s.core.roundStep (Digest.mixAt t) (Digest.constAt t) t)) := by
  have hrow : t < 20 ∨ (20 ≤ t ∧ t < 40) ∨ (40 ≤ t ∧ t < 60) ∨ (60 ≤ t ∧ t < 80) := by omega
  unfold decodeRound Digest.mixAt Digest.constAt
  rcases hrow with h | h | h | h
  · simpa (disch := omega) only [if_pos] using ⟨_, rfl, exec_rstep1 h s⟩
  · simpa (disch := omega) only [if_pos, if_neg] using ⟨_, rfl, exec_rstep2 h s⟩
  · simpa (disch := omega) only [if_pos, if_neg] using ⟨_, rfl, exec_rstep3 h s⟩
  · simpa (disch := omega) only [if_pos, if_neg] using ⟨_, rfl, exec_rstep4 h s⟩

theorem CoreState.cnt_of_round (hpair : c.pairLegal = true) (hph : c.ph = .round) : c.cnt.toNat < 80 := by
  simpa [pairLegal_iff, hph] using hpair

theorem CoreState.cnt_of_expand (hpair : c.pairLegal = true) (hph : c.ph = .expand) : c.cnt.toNat < 64 := by
  simpa [pairLegal_iff, hph] using hpair

theorem step_sequenced (h : s.nextTurn = .sequencer) (hpair : s.core.pairLegal = true) :
    step s = .next (s.takeTurn.withCore s.core.sequenced) := by
  by_cases hround : s.core.ph = .round
  · obtain ⟨i, hi, he⟩ := exec_round (CoreState.cnt_of_round hpair hround) s.takeTurn
    have hdecode : decodePhase s.core.ph.code s.core.cnt.toNat = .instr i := by
      simpa [hround, Phase.code, decodePhase] using hi
    rw [step_of_decodePhase h hdecode, he, CoreState.sequenced_round hround]
    rfl
  · obtain ⟨d, hd, hmove⟩ := step_sequencer h hpair
    rw [hd]
    cases hmove with
    | xstep hph => rw [CoreState.sequenced_expand hph]
    | hinit hph => rw [CoreState.sequenced_init hph]
    | round f k hph => exact absurd hph hround
    | fin hph => rw [CoreState.sequenced_final hph]
    | rest hph => rw [CoreState.sequenced_rest hph]

theorem CoreState.sequencerMove_sequenced (hpair : c.pairLegal = true) : c.SequencerMove c.sequenced := by
  rcases c.pairLegal_iff.1 hpair with ⟨hph, hcnt⟩ | ⟨hph, hcnt⟩ | ⟨hph | hph | hph | hph | hph, hcnt⟩
  · exact sequenced_expand hph ▸ .xstep hph hcnt
  · exact sequenced_round hph ▸ .round _ _ hph hcnt
  · exact (sequenced_rest (.inl hph)).symm ▸ .rest (.inl hph)
  · exact sequenced_init hph ▸ .hinit hph
  · exact sequenced_final hph ▸ .fin hph hcnt
  · exact (sequenced_rest (.inr (.inl hph))).symm ▸ .rest (.inr (.inl hph))
  · exact (sequenced_rest (.inr (.inr hph))).symm ▸ .rest (.inr (.inr hph))

theorem CoreState.pairLegal_iterate (hpair : c.pairLegal = true) (n : Nat) : (sequenced^[n] c).pairLegal = true := by
  induction n with
  | zero => exact hpair
  | succ n ih =>
    rw [Function.iterate_succ_apply']
    exact (sequencerMove_sequenced ih).pairLegal ih

/-! ## A whole run -/

/-- The core is `n` turns after the start of a run: busy with `n` moves taken, or in `DONE` after at least 146 turns. -/
structure CoreState.InRun (n : Nat) (c : CoreState) : Prop where
  legal : c.pairLegal = true
  place : (c.busy = true ∧ c.progress = n) ∨ (c.ph = .done ∧ 146 ≤ n)

theorem CoreState.InRun.sequenced (h : c.InRun n) : c.sequenced.InRun (n + 1) := by
  obtain ⟨hpair, hplace⟩ := h
  refine ⟨(sequencerMove_sequenced hpair).pairLegal hpair, ?_⟩
  simp only [busy_iff] at hplace ⊢
  rcases hplace with ⟨hph, hn⟩ | ⟨hph, hn⟩
  · subst hn
    rcases hph with hph | hph | hph | hph
    · rw [sequenced_expand hph]
      rcases c.xstep_pair (cnt_of_expand hpair hph) with ⟨hlast, hph', -⟩ | ⟨-, hph', hcnt'⟩
      · exact .inl ⟨.inr (.inl hph'), by simp only [progress, hph', hph]; omega⟩
      · exact .inl ⟨.inl (hph'.trans hph), by simp only [progress, hph', hph, hcnt']⟩
    · simp [sequenced_init hph, progress, hph]
    · rw [sequenced_round hph]
      rcases c.roundStep_pair (Digest.mixAt c.cnt.toNat) (Digest.constAt c.cnt.toNat) (cnt_of_round hpair hph) with
        ⟨hlast, hph', -⟩ | ⟨-, hph', hcnt'⟩
      · exact .inl ⟨.inr (.inr (.inr hph')), by simp only [progress, hph', hph]; omega⟩
      · exact .inl ⟨.inr (.inr (.inl (hph'.trans hph))), by simp only [progress, hph', hph, hcnt', Nat.add_assoc]⟩
    · simp [sequenced_final hph, progress, hph]
  · rw [sequenced_rest (.inr (.inl hph))]
    exact .inr ⟨hph, by omega⟩

theorem CoreState.InRun.iterate (h : c.InRun m) (n : Nat) : (CoreState.sequenced^[n] c).InRun (m + n) := by
  induction n with
  | zero => exact h
  | succ n ih =>
    rw [Function.iterate_succ_apply']
    exact ih.sequenced

/-- A run ends with its 146th turn and not before (R261). -/
theorem CoreState.InRun.done_iff (h : c.InRun n) : c.ph = .done ↔ 146 ≤ n := by
  rcases h.place with ⟨hbusy, hn⟩ | ⟨hph, hn⟩
  · rcases busy_iff.1 hbusy with hph | hph | hph | hph <;> simp [← hn, progress, hph]
    · have := cnt_of_expand h.legal hph
      omega
    · have := cnt_of_round h.legal hph
      omega
  · exact iff_of_true hph hn

/-- No run leads to `ERROR` (R147). -/
theorem CoreState.InRun.err_eq_false (h : c.InRun n) : c.err = false := by
  rcases h.place with ⟨hbusy, -⟩ | ⟨hph, -⟩
  · exact (done_err_of_busy hbusy).2
  · simp [err, hph]

theorem CoreState.inRun_of_busy (hpair : c.pairLegal = true) (hbusy : c.busy = true) : c.InRun c.progress :=
  ⟨hpair, .inl ⟨hbusy, rfl⟩⟩

theorem CoreState.inRun_startRun (c : CoreState) : c.startRun.InRun 0 :=
  ⟨pairLegal_of_zero nofun rfl, .inl ⟨rfl, rfl⟩⟩

theorem CoreState.InRun.at_done (h : c.InRun n) (hn : 146 ≤ n) : c.at .done 0 := by
  have hph : c.ph = .done := h.done_iff.2 hn
  exact ⟨hph, by simpa [pairLegal_iff, hph] using h.legal⟩

end Sys2Proof.Machine
end

section
/-! What a host routine does to the core: its answer, the commands it sends, the core it leaves and the responses, with the
machine's run on its turns (spec/30_encoding.md R90 to R93, spec/70_reset_and_hazards.md R252). -/

namespace Sys2Proof.Machine

variable {c d e : CoreState} {s t : State} {sent sent' : List Instr} {rs rs' : List Reply}

/-! ## What a list of turns does -/

/-- The machine with another core and more responses, the newest first. -/
def State.after (s : State) (d : CoreState) (rs : List Reply) : State :=
  { s with core := d, responses := rs ++ s.responses }

@[simp] theorem State.after_core (s : State) (d : CoreState) (rs : List Reply) : (s.after d rs).core = d := rfl

@[simp] theorem State.after_turns (s : State) (d : CoreState) (rs : List Reply) : (s.after d rs).turns = s.turns := rfl

@[simp] theorem State.after_responses (s : State) (d : CoreState) (rs : List Reply) :
    (s.after d rs).responses = rs ++ s.responses := rfl

theorem State.after_self (s : State) : s.after s.core [] = s := rfl

theorem State.after_after (s : State) (d e : CoreState) (rs rs' : List Reply) :
    (s.after d rs).after e rs' = s.after e (rs' ++ rs) := by
  simp only [after, List.append_assoc]

/-- A run in two parts. -/
theorem run_add {m : Nat} (h : Host.Core.run core m s = .next t) (n : Nat) :
    Host.Core.run core (m + n) s = Host.Core.run core n t := by
  induction m generalizing s with
  | zero =>
    cases h
    rw [Nat.zero_add]
  | succ m ih =>
    cases hs : step s with
    | next u =>
      rw [run_succ_of_step hs] at h
      rw [Nat.add_right_comm, run_succ_of_step hs, ih h]
    | fault r =>
      have hcore : core.step s = .fault r := hs
      simp only [Host.Core.run, hcore] at h
      cases h
    | refused r =>
      have hcore : core.step s = .refused r := hs
      simp only [Host.Core.run, hcore] at h
      cases h

/-- The turn is not the sequencer's. -/
def Turn.notSequencer (x : Turn) : Bool := decide (x ≠ .sequencer)

/-- From the core `c` turns that send exactly these commands, with sequencer turns between them, lead to the core `d` with
these responses, whatever turns wait behind them. -/
def CoreState.Reaches (c : CoreState) (sent : List Instr) (d : CoreState) (rs : List Reply) : Prop :=
  ∃ ts : List Turn, ts.filter Turn.notSequencer = sent.map Driver.send ∧
    ∀ s : State, s.core = c → Host.Core.run core ts.length { s with turns := ts ++ s.turns } = .next (s.after d rs)

theorem CoreState.Reaches.refl (c : CoreState) : c.Reaches [] c [] :=
  ⟨[], rfl, by rintro s rfl; rfl⟩

theorem CoreState.Reaches.trans (h : c.Reaches sent d rs) (h' : d.Reaches sent' e rs') :
    c.Reaches (sent ++ sent') e (rs' ++ rs) := by
  obtain ⟨ts, hts, hrun⟩ := h
  obtain ⟨ts', hts', hrun'⟩ := h'
  refine ⟨ts ++ ts', by rw [List.filter_append, hts, hts', List.map_append], fun s hs => ?_⟩
  rw [List.length_append, List.append_assoc, run_add (hrun { s with turns := ts' ++ s.turns } hs)]
  exact (hrun' (s.after d rs) rfl).trans (congrArg _ (s.after_after d e rs rs'))

/-- A single turn, by the step of the machine on it. -/
theorem CoreState.reaches_of_step {x : Turn} (hx : [x].filter Turn.notSequencer = sent.map Driver.send)
    (h : ∀ s : State, s.core = c → step { s with turns := x :: s.turns } = .next (s.after d rs)) : c.Reaches sent d rs :=
  ⟨[x], hx, fun s hs => (run_succ_of_step (h s hs) 0).trans rfl⟩

/-- A sequencer turn at a row of R27. -/
theorem step_sequencerTurn (hpair : c.pairLegal = true) (hs : s.core = c) :
    step { s with turns := .sequencer :: s.turns } = .next (s.after c.sequenced []) := by
  subst hs
  exact step_sequenced (s := { s with turns := .sequencer :: s.turns }) rfl hpair

theorem decodeFrame_commandFrame {i : Instr} (hwf : i.wellFormed = true) (hi : i.isCommand = true) :
    decodeFrame (commandFrame i) = .instr i := by
  have h := decode_encode hwf
  unfold commandFrame
  cases i with
  | nop | clr | pushb | pushw | start | stat | rdb | rdw | rdh => exact h
  | xstep | hinit | rstep1 | rstep2 | rstep3 | rstep4 | fin => cases hi

namespace Driver

variable {α β : Type} {p : Routine α} {f : α → Routine β} {v : α} {a : Answer β}

/-! ## What a routine does -/

/-- From the core `c` the routine ends in `a`: it sends these commands, and leaves the core `d` and these responses. -/
structure Performs (p : Routine α) (c : CoreState) (a : Answer α) (sent : List Instr) (d : CoreState) (rs : List Reply) :
    Prop where
  answers : ∀ s : State, s.core = c → p s = (a, s.after d rs)
  reaches : c.Reaches sent d rs

theorem performs_give (v : α) (c : CoreState) : Performs (give v) c (.value v) [] c [] :=
  ⟨by rintro s rfl; rfl, .refl c⟩

theorem Performs.andThen (h : Performs p c (.value v) sent d rs) (hf : Performs (f v) d a sent' e rs') :
    Performs (andThen p f) c a (sent ++ sent') e (rs' ++ rs) where
  answers s hs := by
    rw [andThen_of_value (h.answers s hs), hf.answers _ rfl, State.after_after]
  reaches := h.reaches.trans hf.reaches

theorem Performs.andThen_waiting (h : Performs p c .waiting sent d rs) :
    Performs (Driver.andThen p f) c .waiting sent d rs where
  answers s hs := andThen_of_waiting (h.answers s hs)
  reaches := h.reaches

/-- One command and its response. -/
theorem performs_issue {i : Instr} {r : Reply} (hwf : i.wellFormed = true) (hi : i.isCommand = true)
    (he : ∀ s : State, s.core = c → exec i s = .next (s.after d [r])) : Performs (issue i) c (.value r) [i] d [r] := by
  have hd := decodeFrame_commandFrame hwf hi
  refine ⟨fun s hs => issue_of_exec hd (he s hs) rfl, CoreState.reaches_of_step (x := send i) rfl fun s hs => ?_⟩
  exact (stepRunsTheDecodedCommand { s with turns := send i :: s.turns } _ _ i rfl hd).trans (he s hs)

theorem performs_stat (c : CoreState) :
    Performs (issue .stat) c (.value (reply .ok c.statusWord)) [.stat] c [reply .ok c.statusWord] :=
  performs_issue rfl rfl (by rintro s rfl; exact exec_stat s)

theorem performs_issueAll_cons {i : Instr} {is : List Instr} {r : Reply} {qs : List Reply}
    (h : Performs (issue i) c (.value r) [i] d [r]) (hrest : Performs (issueAll is) d (.value qs) is e rs) :
    Performs (issueAll (i :: is)) c (.value (r :: qs)) (i :: is) e (rs ++ [r]) := by
  have htail := hrest.andThen (f := fun qs => give (r :: qs)) (performs_give (r :: qs) e)
  rw [List.append_nil, List.nil_append] at htail
  exact h.andThen (f := fun r => andThen (issueAll is) fun qs => give (r :: qs)) htail

theorem performs_sequencerTurns (hpair : c.pairLegal = true) (g : Nat) :
    Performs (sequencerTurns g) c (.value ()) [] (CoreState.sequenced^[g] c) [] := by
  induction g generalizing c with
  | zero => exact performs_give () c
  | succ g ih =>
    have hturn : Performs (takeNow .sequencer) c (.value ()) [] c.sequenced [] :=
      ⟨fun s hs => by simp only [takeNow, step_sequencerTurn hpair hs],
        CoreState.reaches_of_step (x := .sequencer) rfl fun s hs => step_sequencerTurn hpair hs⟩
    exact hturn.andThen (f := fun _ => sequencerTurns g) (ih ((CoreState.sequencerMove_sequenced hpair).pairLegal hpair))

end Driver

end Sys2Proof.Machine
end

section
/-! `WAIT` (spec/30_encoding.md R93): what it does from every legal pair and with every schedule. -/

namespace Sys2Proof.Machine

variable {c d : CoreState} {g : Nat} {gaps : List Nat}

/-- The computation has ended: `DONE` or `ERR` is set. -/
def CoreState.ended (c : CoreState) : Bool := c.done || c.err

theorem CoreState.InRun.ended_iff {n : Nat} (h : c.InRun n) : c.ended = true ↔ 146 ≤ n := by
  rw [ended, h.err_eq_false, Bool.or_false, CoreState.done_iff, h.done_iff]

theorem CoreState.InRun.lt_of_busy {n : Nat} (h : c.InRun n) (hbusy : c.busy = true) : n < 146 := by
  rw [← Nat.not_le, ← h.done_iff, ← CoreState.done_iff, (done_err_of_busy hbusy).1]
  nofun

/-- The bits 1 and 2 of a status response are `DONE` and `ERR` (R30, R143). -/
theorem CoreState.bits_statusWord (c : CoreState) : (reply .ok c.statusWord).toNat / 2 % 4 = 0 ↔ c.ended = false := by
  have hnat : (reply .ok c.statusWord).toNat = c.statusWord.toNat := by
    rw [reply_toNat]
    exact Nat.zero_add _
  have hdone := Driver.doneBit_statusWord c
  have herr := Driver.errBit_statusWord c
  rw [Driver.doneBit, BitVec.getLsbD, Nat.testBit_eq_decide_div_mod_eq] at hdone
  rw [Driver.errBit, BitVec.getLsbD, Nat.testBit_eq_decide_div_mod_eq] at herr
  rw [hnat, ended, ← hdone, ← herr, Bool.or_eq_false_iff, decide_eq_false_iff_not, decide_eq_false_iff_not]
  omega

/-- The data of an `OK` response are its low 32 bits. -/
theorem setWidth_reply (st : Status) (data : Word) : (reply st data).setWidth 32 = data :=
  BitVec.setWidth_append_eq_right

namespace Driver

/-- What `WAIT` does from the core `c`: it sends one `STAT` per response and takes sequencer turns of the schedule, and ends
at the first response that shows `DONE` or `ERR`, or waits when the schedule is used up. -/
structure Waits (gaps : List Nat) (c : CoreState) (a : Answer Word) (d : CoreState) (rs : List Reply) : Prop where
  performs : Performs (wait gaps) c a (List.replicate rs.length .stat) d rs
  length_le : rs.length ≤ gaps.length
  moves : ∃ n, n ≤ gaps.sum ∧ d = CoreState.sequenced^[n] c
  quiet : ∀ r ∈ rs.tail, r.toNat / 2 % 4 = 0
  ends : (a = .value d.statusWord ∧ rs.head? = some (reply .ok d.statusWord) ∧ d.ended = true) ∨
    (a = .waiting ∧ rs.length = gaps.length ∧ d = CoreState.sequenced^[gaps.sum] c ∧
      (∀ r ∈ rs, r.toNat / 2 % 4 = 0) ∧ (gaps ≠ [] → d.ended = false))

theorem waits_nil (c : CoreState) : Waits [] c .waiting c [] where
  performs := ⟨by rintro s rfl; rfl, .refl c⟩
  length_le := le_rfl
  moves := ⟨0, le_rfl, rfl⟩
  quiet := nofun
  ends := .inr ⟨rfl, rfl, rfl, nofun, fun h => absurd rfl h⟩

/-- One entry of the schedule: its sequencer turns, a `STAT`, and what the rest of `WAIT` makes of the response. -/
theorem performs_wait_cons {a : Answer Word} {sent : List Instr} {rs : List Reply} (hpair : c.pairLegal = true)
    (h : Performs (if (CoreState.sequenced^[g] c).ended then give (CoreState.sequenced^[g] c).statusWord else wait gaps)
      (CoreState.sequenced^[g] c) a sent d rs) :
    Performs (wait (g :: gaps)) c a (.stat :: sent) d (rs ++ [reply .ok (CoreState.sequenced^[g] c).statusWord]) := by
  have hall : Performs (wait (g :: gaps)) c a ([] ++ ([.stat] ++ sent)) d
      (rs ++ [reply .ok (CoreState.sequenced^[g] c).statusWord] ++ []) := by
    refine (performs_sequencerTurns hpair g).andThen ((performs_stat _).andThen ?_)
    simp only [replyData_reply, doneBit_statusWord, errBit_statusWord]
    exact h
  rwa [List.append_nil] at hall

/-- The core ends within the first entry of the schedule. -/
theorem waits_of_ended (hpair : c.pairLegal = true) (hend : (CoreState.sequenced^[g] c).ended = true) :
    Waits (g :: gaps) c (.value (CoreState.sequenced^[g] c).statusWord) (CoreState.sequenced^[g] c)
      [reply .ok (CoreState.sequenced^[g] c).statusWord] where
  performs := performs_wait_cons hpair (by rw [if_pos hend]; exact performs_give _ _)
  length_le := Nat.succ_le_succ (Nat.zero_le _)
  moves := ⟨g, by simp, rfl⟩
  quiet := nofun
  ends := .inl ⟨rfl, rfl, hend⟩

/-- The core does not end within the first entry of the schedule: `WAIT` goes on with the rest. -/
theorem Waits.cons {a : Answer Word} {rs : List Reply} (hpair : c.pairLegal = true)
    (hend : (CoreState.sequenced^[g] c).ended = false) (h : Waits gaps (CoreState.sequenced^[g] c) a d rs) :
    Waits (g :: gaps) c a d (rs ++ [reply .ok (CoreState.sequenced^[g] c).statusWord]) := by
  have hfirst := (CoreState.sequenced^[g] c).bits_statusWord.2 hend
  have hperforms := performs_wait_cons (gaps := gaps) hpair (by rw [if_neg (ne_true_of_eq_false hend)]; exact h.performs)
  obtain ⟨-, hlength, ⟨n, hn, hd⟩, hquiet, hends⟩ := h
  refine ⟨?_, ?_, ⟨n + g, ?_, ?_⟩, ?_, ?_⟩
  · rwa [List.length_append, List.length_singleton, List.replicate_succ]
  · simpa using hlength
  · rw [List.sum_cons]
    omega
  · rw [hd, Function.iterate_add_apply]
  · rcases rs with _ | ⟨r, rs⟩
    · nofun
    · exact List.forall_mem_append.2 ⟨hquiet, List.forall_mem_singleton.2 hfirst⟩
  · rcases hends with ⟨ha, hhead, hd'⟩ | ⟨ha, hlength', hd', hall, hne⟩
    · exact .inl ⟨ha, by rw [List.head?_append, hhead]; rfl, hd'⟩
    · refine .inr ⟨ha, by simpa using hlength', ?_,
        List.forall_mem_append.2 ⟨hall, List.forall_mem_singleton.2 hfirst⟩, fun _ => ?_⟩
      · rw [hd', List.sum_cons, Nat.add_comm, Function.iterate_add_apply]
      · rcases gaps with _ | ⟨g', gaps⟩
        · rw [hd']
          exact hend
        · exact hne nofun

/-- From every row of R27 and for every schedule, by induction on the schedule. -/
theorem exists_waits (gaps : List Nat) (hpair : c.pairLegal = true) : ∃ a d rs, Waits gaps c a d rs := by
  induction gaps generalizing c with
  | nil => exact ⟨_, _, _, waits_nil c⟩
  | cons g gaps ih =>
    cases hend : (CoreState.sequenced^[g] c).ended with
    | true => exact ⟨_, _, _, waits_of_ended hpair hend⟩
    | false =>
      obtain ⟨a, d, rs, h⟩ := ih (CoreState.pairLegal_iterate hpair g)
      exact ⟨a, d, _, h.cons hpair hend⟩

section
variable {a : Answer Word} {rs : List Reply} {n : Nat} (h : Waits gaps c a d rs) (hrun : c.InRun n)
include h hrun

/-- In a run `WAIT` ends, in `DONE`, when the schedule adds up to the turns that the run still needs (R146). -/
theorem Waits.value_of_run (hn : n < 146) (hsum : 146 ≤ n + gaps.sum) :
    a = .value d.statusWord ∧ d.at .done 0 ∧ rs ≠ [] := by
  obtain ⟨m, -, hd⟩ := h.moves
  rcases h.ends with ⟨ha, hhead, hend⟩ | ⟨-, -, hd', -, hne⟩
  · have hrun' : d.InRun (n + m) := hd ▸ hrun.iterate m
    exact ⟨ha, hrun'.at_done (hrun'.ended_iff.1 hend), fun hnil => by simp [hnil] at hhead⟩
  · have hrun' : d.InRun (n + gaps.sum) := hd' ▸ hrun.iterate gaps.sum
    have hgaps : gaps ≠ [] := by
      rintro rfl
      exact absurd hsum (Nat.not_le.2 hn)
    exact absurd (hrun'.ended_iff.2 hsum) (ne_true_of_eq_false (hne hgaps))

/-- In a run `WAIT` does not end with a schedule that adds up to fewer turns (R261). -/
theorem Waits.waiting_of_run (hsum : n + gaps.sum < 146) : a = .waiting := by
  obtain ⟨m, hm, hd⟩ := h.moves
  have hrun' : d.InRun (n + m) := hd ▸ hrun.iterate m
  rcases h.ends with ⟨-, -, hend⟩ | ⟨ha, -⟩
  · have hend := hrun'.ended_iff.1 hend
    omega
  · exact ha

end

end Driver

/-- Settles O51: `WAIT` as the induction on its schedule describes it; a busy core is in a run. -/
theorem waitRepeatsStatUntilDoneOrErr : Obligations.WaitRepeatsStatUntilDoneOrErr := by
  intro s gaps hpair
  obtain ⟨a, d, rs, h⟩ := Driver.exists_waits gaps hpair
  have hwait := h.performs.answers s rfl
  refine ⟨s.after d rs, rs, rfl, h.length_le, h.quiet, ?_, fun hbusy hsum => ?_⟩
  · rcases h.ends with ⟨ha, hhead, hend⟩ | ⟨ha, hlength, -, hall, -⟩
    · refine .inl ⟨_, hhead, ?_, ?_, by simpa [CoreState.ended] using hend⟩
      · rw [ne_eq, CoreState.bits_statusWord, hend]
        nofun
      · rw [setWidth_reply, hwait, ha]
    · exact .inr ⟨by rw [hwait, ha], hlength, hall⟩
  · have hrun := CoreState.inRun_of_busy hpair hbusy
    obtain ⟨ha, -⟩ := h.value_of_run hrun (hrun.lt_of_busy hbusy) (by omega)
    rw [hwait, ha]
    nofun

end Sys2Proof.Machine
end

section
/-! A run computes `DIGEST` (spec/00_scope.md R10, spec/42_sequencer_control.md R144): the words of the buffer and the
accumulators of the core, turn by turn, are those of the steps of R10. -/

namespace Sys2Proof.Machine

/-! ## The steps of R10, counted -/

/-- The words after `n` expansion steps (`Digest.schedule` is 64 of them). -/
def Digest.expanded (w : List Word) (n : Nat) : List Word := (List.range n).foldl Digest.expandAt w

theorem Digest.expanded_succ (w : List Word) (n : Nat) :
    Digest.expanded w (n + 1) = Digest.expandAt (Digest.expanded w n) n := by
  simp only [Digest.expanded, List.range_succ, List.foldl_append, List.foldl_cons, List.foldl_nil]

/-- The accumulators after `n` rounds (`Digest.finalAccs` is 80 of them and the final addition). -/
def Digest.rounds (w : List Word) (n : Nat) : Digest.Accs := (List.range n).foldl (Digest.roundAt w) Digest.initial

theorem Digest.rounds_succ (w : List Word) (n : Nat) :
    Digest.rounds w (n + 1) = Digest.roundAt w (Digest.rounds w n) n := by
  simp only [Digest.rounds, List.range_succ, List.foldl_append, List.foldl_cons, List.foldl_nil]

/-! ## The buffer as a list of words -/

/-- The buffer holds these 256 words. -/
def Memory.Holds (m : Memory) (w : List Word) : Prop := w.length = 256 ∧ ∀ j, j < 256 → m.word j = w.getD j 0

theorem Memory.holds_wordsOf {m : Memory} {l : List Byte} (hlen : l.length = 1024)
    (hbyte : ∀ x, x < 1024 → m.byte x = l.getD x 0) : m.Holds (Digest.wordsOf l) := by
  refine ⟨by rw [Digest.length_wordsOf, hlen], fun j hj => ?_⟩
  rw [Digest.getD_wordsOf (by omega), Memory.word, hbyte _ (by omega), hbyte _ (by omega), hbyte _ (by omega),
    hbyte _ (by omega)]

variable {c : CoreState} {m : Memory} {w : List Word} {i : Nat}

theorem Memory.Holds.expansion (h : m.Holds w) (hi : i < 64) : m.expansion i =
    rol32 1 ((w.getD i 0 ^^^ w.getD (i + 2) 0 ^^^ w.getD (i + 8) 0 ^^^ w.getD (i + 13) 0) &&& 0x1F).toNat := by
  obtain ⟨-, hword⟩ := h
  rw [Memory.expansion, hword _ (by omega), hword _ (by omega), hword _ (by omega), hword _ (by omega)]
  rfl

/-- `XSTEP i` is the step of R10 for `i`. -/
theorem Memory.Holds.expandAt (h : m.Holds w) (hwf : m.wf = true) (hi : i < 64) :
    (m.writeWord (i + 16) (m.expansion i)).Holds (Digest.expandAt w i) := by
  have hexp := h.expansion hi
  obtain ⟨hlen, hword⟩ := h
  refine ⟨by rw [Digest.expandAt, List.length_set, hlen], fun j hj => ?_⟩
  rw [Digest.expandAt, ← hexp, List.getD_eq_getElem?_getD, List.getElem?_set, hlen]
  by_cases hji : i + 16 = j
  · subst hji
    rw [Memory.word_writeWord_self hwf hj, if_pos rfl, if_pos hj]
    rfl
  · rw [Memory.word_writeWord_of_ne hwf (by omega) (Ne.symm hji), if_neg hji, ← List.getD_eq_getElem?_getD, hword j hj]

/-! ## The accumulators -/

/-- The five accumulators of the core as a value. -/
def CoreState.accs (c : CoreState) : Digest.Accs := ⟨c.a, c.b, c.c, c.d, c.e⟩

/-- Round `t` of the core is the step of R10 for `t`. -/
theorem CoreState.accs_roundStep {t : Nat} (hw : c.buf.word t = w.getD t 0) :
    (c.roundStep (Digest.mixAt t) (Digest.constAt t) t).accs = Digest.roundAt w c.accs t := by
  simp only [accs, Digest.roundAt, roundStep_a, roundStep_b, roundStep_c, roundStep_d, roundStep_e, roundSum, hw]

theorem CoreState.accs_hinit (c : CoreState) : c.hinit.accs = Digest.initial := rfl

theorem CoreState.accs_fin (h : c.accs = Digest.rounds w 80) : c.fin.accs = Digest.finalAccs w := by
  rw [Digest.finalAccs, ← Digest.rounds, ← h]
  rfl

theorem CoreState.digestBytes_of_accs {bytes : List Byte} (h : c.accs = Digest.finalAccs (Digest.schedule bytes)) :
    c.digestBytes = Digest.digest bytes := by
  rw [Digest.digest, ← h]
  simp only [digestBytes, digestWords, accs, List.flatMap_cons, List.flatMap_nil, List.append_nil, List.append_assoc]

/-! ## A run -/

/-- The core is in a run on the words `w`: what its turns so far have computed (R10, steps 2 to 4). -/
inductive CoreState.Computes (w : List Word) (c : CoreState) : Prop
  | expand (hph : c.ph = .expand) (hcnt : c.cnt.toNat < 64) (hwf : c.buf.wf = true)
      (hbuf : c.buf.Holds (Digest.expanded w c.cnt.toNat))
  | init (hph : c.ph = .init) (hbuf : c.buf.Holds (Digest.expanded w 64))
  | round (hph : c.ph = .round) (hcnt : c.cnt.toNat < 80) (hbuf : c.buf.Holds (Digest.expanded w 64))
      (haccs : c.accs = Digest.rounds (Digest.expanded w 64) c.cnt.toNat)
  | final (hph : c.ph = .final) (haccs : c.accs = Digest.rounds (Digest.expanded w 64) 80)
  | done (hph : c.ph = .done) (haccs : c.accs = Digest.finalAccs (Digest.expanded w 64))

theorem CoreState.Computes.sequenced (h : c.Computes w) : c.sequenced.Computes w := by
  cases h with
  | expand hph hcnt hwf hbuf =>
    have hbuf' : (c.xstep c.cnt.toNat).buf.Holds (Digest.expanded w (c.cnt.toNat + 1)) := by
      rw [xstep_buf, Digest.expanded_succ]
      exact hbuf.expandAt hwf hcnt
    rw [sequenced_expand hph]
    rcases c.xstep_pair hcnt with ⟨hlast, hph', -⟩ | ⟨hlt, hph', hcnt'⟩
    · rw [hlast] at hbuf' hph' ⊢
      exact .init hph' hbuf'
    · refine .expand (hph'.trans hph) (hcnt'.trans_lt hlt) ?_ (hcnt'.symm ▸ hbuf')
      rw [xstep_buf]
      exact Memory.wf_writeWord hwf (by omega)
  | init hph hbuf =>
    rw [sequenced_init hph]
    exact .round rfl (Nat.zero_lt_succ _) hbuf c.accs_hinit
  | round hph hcnt hbuf haccs =>
    have hword : c.buf.word c.cnt.toNat = (Digest.expanded w 64).getD c.cnt.toNat 0 := hbuf.2 _ (by omega)
    have haccs' := accs_roundStep hword
    rw [haccs, ← Digest.rounds_succ] at haccs'
    rw [sequenced_round hph]
    rcases c.roundStep_pair (Digest.mixAt c.cnt.toNat) (Digest.constAt c.cnt.toNat) hcnt with
      ⟨hlast, hph', -⟩ | ⟨hlt, hph', hcnt'⟩
    · exact .final hph' (by rw [haccs', hlast])
    · refine .round (hph'.trans hph) (hcnt'.trans_lt hlt) ?_ (by rw [haccs', hcnt'])
      rw [roundStep_buf]
      exact hbuf
  | final hph haccs =>
    rw [sequenced_final hph]
    exact .done rfl (accs_fin haccs)
  | done hph haccs =>
    rw [sequenced_rest (.inr (.inl hph))]
    exact .done hph haccs

theorem CoreState.Computes.iterate (h : c.Computes w) (n : Nat) : (CoreState.sequenced^[n] c).Computes w := by
  induction n with
  | zero => exact h
  | succ n ih =>
    rw [Function.iterate_succ_apply']
    exact ih.sequenced

theorem CoreState.Computes.accs_of_done (h : c.Computes w) (hph : c.ph = .done) :
    c.accs = Digest.finalAccs (Digest.expanded w 64) := by
  cases h with
  | done _ haccs => exact haccs
  | expand hph' | init hph' | round hph' | final hph' => cases hph.symm.trans hph'

/-- At the start of a run on a buffer that reads as these bytes, zero-filled (R10, step 1). -/
theorem CoreState.computes_startRun {bytes : List Byte} (hwf : c.buf.wf = true)
    (hbyte : ∀ x, x < 1024 → c.buf.byte x = bytes.getD x 0) :
    c.startRun.Computes (Digest.wordsOf (Digest.paddedBuffer bytes)) := by
  refine .expand rfl (Nat.zero_lt_succ _) hwf (Memory.holds_wordsOf (Digest.length_paddedBuffer bytes) fun x hx => ?_)
  rw [Digest.getD_paddedBuffer hx]
  exact hbyte x hx

/-- In `DONE` at the end of a run the digest is that of the bytes. -/
theorem CoreState.Computes.digestBytes {bytes : List Byte}
    (h : c.Computes (Digest.wordsOf (Digest.paddedBuffer bytes))) (hph : c.ph = .done) :
    c.digestBytes = Digest.digest bytes :=
  digestBytes_of_accs (h.accs_of_done hph)

end Sys2Proof.Machine
end

section
/-! `HASHB` and `HASHS` (spec/30_encoding.md R90, R91, R252): the load, the run, the wait and the output reads, joined. -/

namespace Sys2Proof.Machine

theorem CoreState.load_nil (c : CoreState) : c.load [] = c := by
  rw [load, Memory.writeBytes_nil, List.length_nil, BitVec.add_zero]

namespace Driver

variable {c d : CoreState} {n : List Byte} {gaps : List Nat}

/-! ## The load and the start -/

/-- `PUSHB` of the bytes `n`, one after the other, while they fit (R92). -/
theorem performs_loadCommands (hidle : c.at .idle 0) (hfit : c.len.toNat + n.length ≤ 1024) :
    Performs (issueAll (loadCommands n)) c (.value (List.replicate n.length (reply .ok 0))) (loadCommands n)
      (c.load n) (List.replicate n.length (reply .ok 0)) := by
  induction n generalizing c with
  | nil =>
    rw [CoreState.load_nil]
    exact performs_give [] c
  | cons b n ih =>
    rw [List.length_cons] at hfit
    have hpush : Performs (issue (.pushb b)) c (.value (reply .ok 0)) [.pushb b] (c.load [b]) [reply .ok 0] :=
      performs_issue rfl rfl (by
        rintro s rfl
        exact (exec_pushb b s).trans (congrArg _ (State.whenPhase_appendBytes hidle (by simp; omega))))
    have hlen : (c.load [b]).len.toNat = c.len.toNat + 1 := CoreState.toNat_load_len (by simp; omega)
    have hload : (c.load [b]).load n = c.load (b :: n) := CoreState.load_load (by simp; omega)
    have hall := performs_issueAll_cons hpush (ih (c := c.load [b]) hidle (by omega))
    rwa [hload, ← List.replicate_succ', ← List.replicate_succ, ← List.length_cons (a := b)] at hall

/-- `CLR` and `LOAD n` leave the message alone in the buffer, every response `OK` (R124). -/
theorem performs_clr_load (c : CoreState) (hn : n.length ≤ 1024) :
    Performs (issueAll (.clr :: loadCommands n)) c (.value (List.replicate (n.length + 1) (reply .ok 0)))
      (.clr :: loadCommands n) (CoreState.reset.load n) (List.replicate (n.length + 1) (reply .ok 0)) := by
  have hclr : Performs (issue .clr) c (.value (reply .ok 0)) [.clr] CoreState.reset [reply .ok 0] :=
    performs_issue rfl rfl (by rintro s rfl; exact exec_clr s)
  have hload : Performs (issueAll (loadCommands n)) CoreState.reset (.value (List.replicate n.length (reply .ok 0)))
      (loadCommands n) (CoreState.reset.load n) (List.replicate n.length (reply .ok 0)) :=
    performs_loadCommands ⟨rfl, rfl⟩ (by simpa using hn)
  have hall := performs_issueAll_cons hclr hload
  rwa [← List.replicate_succ', ← List.replicate_succ] at hall

theorem performs_start (hidle : c.at .idle 0) (hlen : c.len ≠ 0) :
    Performs (issue .start) c (.value (reply .ok 0)) [.start] c.startRun [reply .ok 0] := by
  refine performs_issue rfl rfl ?_
  rintro s rfl
  obtain ⟨hph, hcnt⟩ := hidle
  have hpair : s.core.pairLegal = true := CoreState.pairLegal_of_zero (by simp [hph]) hcnt
  rw [exec_start, State.whenPhase_of_phase (need := .idle) hpair nofun hph, if_neg hlen]
  rfl

theorem isInvalidData_ok (data : Word) : isInvalidData (reply .ok data) = false := by
  rw [isInvalidData, replyStatus_reply]
  rfl

/-- A message loaded behind `CLR` reads back, zero-filled (R124). -/
theorem byte_reset_load (hn : n.length ≤ 1024) (x : Nat) : (CoreState.reset.load n).buf.byte x = n.getD x 0 := by
  have hbyte : ∀ y, (Memory.writeBytes [] 0 n).byte y = if 0 ≤ y ∧ y < 0 + n.length then n.getD (y - 0) 0 else 0 :=
    Memory.byte_writeBytes Memory.wf_nil (by omega)
  refine (hbyte x).trans ?_
  split
  · rfl
  · rw [List.getD_eq_default]
    omega

/-! ## The output reads -/

/-- The byte in the low bits of a response. -/
def lowByte (r : Reply) : Byte := (replyData r).extractLsb' 0 8

theorem lowByte_reply (st : Status) (b : Byte) : lowByte (reply st (b.setWidth 32)) = b := by
  have := b.isLt
  apply BitVec.eq_of_toNat_eq
  rw [lowByte, replyData_reply, BitVec.extractLsb'_toNat, BitVec.toNat_setWidth, Nat.shiftRight_zero]
  omega

/-- Commands that leave the core as it is, one after the other. -/
theorem performs_reads {mk : Nat → Instr} {answer : Nat → Reply} {ks : List Nat}
    (h : ∀ k ∈ ks, Performs (issue (mk k)) d (.value (answer k)) [mk k] d [answer k]) :
    Performs (issueAll (ks.map mk)) d (.value (ks.map answer)) (ks.map mk) d (ks.map answer).reverse := by
  induction ks with
  | nil => exact performs_give [] d
  | cons k ks ih =>
    rw [List.forall_mem_cons] at h
    obtain ⟨hk, hks⟩ := h
    have hall := performs_issueAll_cons hk (ih hks)
    rwa [← List.reverse_cons] at hall

theorem map_getD_range (l : List Byte) : (List.range l.length).map (l.getD · 0) = l := by
  refine List.ext_getElem (by simp) fun k hk hk' => ?_
  rw [List.getElem_map, List.getElem_range, List.getD_eq_getElem _ _ hk']

/-- In `DONE` the reads `mk 0`, `mk 1`, … of a view of the bytes `l` answer these bytes in order. -/
theorem performs_view {mk : Nat → Instr} {l : List Byte} (hdone : d.at .done 0)
    (hmk : ∀ k, k < l.length → (mk k).wellFormed = true ∧ (mk k).isCommand = true)
    (he : ∀ k, k < l.length → ∀ s : State, s.core = d →
      exec (mk k) s = .next (s.whenPhase .done (s.respond .ok ((l.getD k 0).setWidth 32)))) :
    ∃ qs rs, Performs (issueAll ((List.range l.length).map mk)) d (.value qs) ((List.range l.length).map mk) d rs ∧
      qs.map lowByte = l := by
  obtain ⟨hph, hcnt⟩ := hdone
  have hpair : d.pairLegal = true := CoreState.pairLegal_of_zero (by simp [hph]) hcnt
  refine ⟨_, _, performs_reads (answer := fun k => reply .ok ((l.getD k 0).setWidth 32)) fun k hk => ?_, ?_⟩
  · have hk := List.mem_range.1 hk
    obtain ⟨hwf, hcommand⟩ := hmk k hk
    refine performs_issue hwf hcommand fun s hs => ?_
    rw [he k hk s hs, State.whenPhase_of_phase (need := .done) (hs ▸ hpair) nofun (hs ▸ hph)]
    subst hs
    rfl
  · simp only [List.map_map, Function.comp_def, lowByte_reply]
    exact map_getD_range l

theorem performs_byteReads (hdone : d.at .done 0) :
    ∃ qs rs, Performs (issueAll byteReads) d (.value qs) byteReads d rs ∧ qs.map lowByte = d.digestBytes :=
  performs_view (mk := .rdb) (l := d.digestBytes) hdone (fun _ hk => ⟨decide_eq_true hk, rfl⟩)
    fun _ hk s hs => hs ▸ exec_rdb_of_lt hk s

theorem performs_hexReads (hdone : d.at .done 0) :
    ∃ qs rs, Performs (issueAll hexReads) d (.value qs) hexReads d rs ∧ qs.map lowByte = d.hexDigest :=
  performs_view (mk := .rdh) (l := d.hexDigest) hdone (fun _ hk => ⟨decide_eq_true hk, rfl⟩)
    fun _ hk s hs => hs ▸ exec_rdh_of_lt hk s

/-! ## The routine -/

/-- The part of `hashCommands` behind a `START` that began a run (`performs_hashCommands` ties it to the routine). -/
def waitAndRead (reads : List Instr) (gaps : List Nat) : Routine (List Byte) :=
  andThen (wait gaps) fun status =>
    if errBit status then returnInvalidData else andThen (issueAll reads) fun rs => give (rs.map lowByte)

/-- On a message that fits, the routine loads it, starts the run, and goes on with the wait. -/
theorem performs_hashCommands {reads sent : List Instr} {a : Answer (List Byte)} {rs : List Reply} (c : CoreState)
    (hpos : 1 ≤ n.length) (hn : n.length ≤ 1024)
    (h : Performs (waitAndRead reads gaps) (CoreState.reset.load n).startRun a sent d rs) :
    Performs (hashCommands reads gaps n) c a (.clr :: loadCommands n ++ .start :: sent) d
      (rs ++ [reply .ok 0] ++ List.replicate (n.length + 1) (reply .ok 0)) := by
  have hlen : (CoreState.reset.load n).len ≠ 0 := fun h0 => by
    have hlen := CoreState.toNat_load_len (c := CoreState.reset) (bs := n) (by simpa using hn)
    rw [h0] at hlen
    simp at hlen
    omega
  have hloaded : (List.replicate (n.length + 1) (reply .ok 0)).any isInvalidData = false := by simp [isInvalidData_ok]
  refine (performs_clr_load c hn).andThen ?_
  simp only [hloaded, Bool.false_eq_true, if_false]
  refine (performs_start ⟨rfl, rfl⟩ hlen).andThen ?_
  simp only [isInvalidData_ok, Bool.false_eq_true, if_false]
  exact h

/-- A wait that ended in `DONE` is followed by the reads. -/
theorem performs_waitAndRead {reads : List Instr} {rs qs rs' : List Reply}
    (h : Performs (wait gaps) c (.value d.statusWord) (List.replicate rs.length .stat) d rs) (herr : d.err = false)
    (hreads : Performs (issueAll reads) d (.value qs) reads d rs') :
    Performs (waitAndRead reads gaps) c (.value (qs.map lowByte)) (List.replicate rs.length .stat ++ reads) d
      (rs' ++ rs) := by
  refine h.andThen ?_
  simp only [errBit_statusWord, herr, Bool.false_eq_true, if_false]
  have hgive := hreads.andThen (f := fun rs => give (rs.map lowByte)) (performs_give _ _)
  rwa [List.append_nil, List.nil_append] at hgive

/-- On 1 to 1024 bytes the routine does one run, whose digest the reads give, or still waits for its end. -/
theorem hashCommands_returns {reads : List Instr} {v : List Byte} (hpos : 1 ≤ n.length) (hn : n.length ≤ 1024)
    (hreads : ∀ d : CoreState, d.at .done 0 → d.digestBytes = Digest.digest n →
      ∃ qs rs, Performs (issueAll reads) d (.value qs) reads d rs ∧ qs.map lowByte = v) :
    ReturnsAfterOneRun (hashCommands reads gaps n) n reads gaps v := by
  intro s
  have hrun : (CoreState.reset.load n).startRun.InRun 0 := CoreState.inRun_startRun _
  obtain ⟨a, d, rs, hwaits⟩ := exists_waits gaps hrun.legal
  have hperforms := hwaits.performs
  refine ⟨fun hsum => ?_, fun hsum => ?_⟩
  · obtain ⟨ha, hdone, hrs⟩ := hwaits.value_of_run hrun (by omega) (by omega)
    have hph : d.ph = .done := hdone.1
    have hdigest : d.digestBytes = Digest.digest n := by
      obtain ⟨m, -, rfl⟩ := hwaits.moves
      have hwf : (CoreState.reset.load n).buf.wf = true := Memory.wf_writeBytes Memory.wf_nil (by simpa using hn)
      exact ((CoreState.computes_startRun hwf fun x _ => byte_reset_load hn x).iterate m).digestBytes hph
    obtain ⟨qs, rs', hread, hv⟩ := hreads d hdone hdigest
    rw [ha] at hperforms
    have hall := performs_hashCommands s.core hpos hn
      (performs_waitAndRead hperforms (by simp [CoreState.err, hph]) hread)
    obtain ⟨ts, hts, hrunts⟩ := hall.reaches
    obtain ⟨k, hk⟩ := Nat.exists_eq_succ_of_ne_zero (List.length_eq_zero_iff.not.2 hrs)
    rw [hk, ← List.cons_append, ← List.append_assoc] at hts
    exact ⟨_, ts, k, hv ▸ hall.answers s rfl, hts, hrunts s rfl, hdone, rfl⟩
  · rw [hwaits.waiting_of_run hrun (by omega)] at hperforms
    have hall := performs_hashCommands (reads := reads) s.core hpos hn hperforms.andThen_waiting
    exact congrArg Prod.fst (hall.answers s rfl)

theorem hashCommands_byteReads (hpos : 1 ≤ n.length) (hn : n.length ≤ 1024) :
    ReturnsAfterOneRun (hashCommands byteReads gaps n) n byteReads gaps (Digest.digest n) :=
  hashCommands_returns hpos hn fun _ hdone hdigest => hdigest ▸ performs_byteReads hdone

theorem hashCommands_hexReads (hpos : 1 ≤ n.length) (hn : n.length ≤ 1024) :
    ReturnsAfterOneRun (hashCommands hexReads gaps n) n hexReads gaps (Digest.hexDigest n) :=
  hashCommands_returns hpos hn fun d hdone hdigest => by
    rw [Digest.hexDigest, ← hdigest]
    exact performs_hexReads hdone

/-! ## Behind the normalizer -/

/-- The normalizer passes on 1 to 1024 bytes (R104). -/
theorem length_of_normalizeText {lower : Normalizer.Text → Normalizer.Text} {text : Normalizer.Text}
    (h : Normalizer.normalizeText lower text = some n) : 1 ≤ n.length ∧ n.length ≤ 1024 := by
  unfold Normalizer.normalizeText at h
  split at h
  case isTrue hlen =>
    cases h
    simpa [Normalizer.checkLen] using hlen
  case isFalse => cases h

theorem length_of_normalizeBytes {lower : Normalizer.Text → Normalizer.Text} {m : List Byte}
    (h : Normalizer.normalizeBytes lower m = some n) : 1 ≤ n.length ∧ n.length ≤ 1024 := by
  unfold Normalizer.normalizeBytes at h
  split at h
  · cases h
  · exact length_of_normalizeText h

/-- A routine on normalised bytes: without them the core is not used, else it answers their hash after one run. -/
theorem onNormalized_returns {normalized : Option (List Byte)} {commands : List Byte → Routine (List Byte)}
    {reads : List Instr} {hash : List Byte → List Byte}
    (h : ∀ n, normalized = some n → ReturnsAfterOneRun (commands n) n reads gaps (hash n)) :
    (normalized = none → ∀ s, onNormalized normalized commands s = (.invalidData, s)) ∧
    (∀ n, normalized = some n → ReturnsAfterOneRun (onNormalized normalized commands) n reads gaps (hash n)) ∧
    (146 ≤ gaps.sum → ∀ s,
      (onNormalized normalized commands s).1 = (normalized.map hash).elim .invalidData .value) := by
  cases normalized with
  | none => exact ⟨fun _ _ => rfl, nofun, fun _ _ => rfl⟩
  | some n =>
    refine ⟨nofun, ?_, fun hsum s => ?_⟩
    · rintro _ ⟨rfl⟩
      exact h n rfl
    · obtain ⟨hvalue, -⟩ := h n rfl s
      obtain ⟨t, -, -, ht, -⟩ := hvalue hsum
      exact congrArg Prod.fst ht

/-- Settles O53: the commands of `HASHB` on the normalised bytes do one run, and `RDB 0` to `RDB 19` read its digest. -/
theorem hashbReturnsTheDigest : Obligations.HashbReturnsTheDigest := fun _ _ _ =>
  onNormalized_returns fun _ hn =>
    have ⟨hpos, hle⟩ := length_of_normalizeBytes hn
    hashCommands_byteReads hpos hle

/-- Settles O54: the same run for a text, and `RDH 0` to `RDH 39` read the digest in hexadecimal characters. -/
theorem hashsReturnsTheHexDigest : Obligations.HashsReturnsTheHexDigest := fun _ _ _ =>
  onNormalized_returns fun _ hn =>
    have ⟨hpos, hle⟩ := length_of_normalizeText hn
    hashCommands_hexReads hpos hle

end Driver

end Sys2Proof.Machine
end


section
/-! `HASHB` and `HASHS` on bytes of a length that is not admitted (spec/40_input_normalizer.md R104, R107,
spec/70_reset_and_hazards.md R253): `START` or a `PUSHB` answers `INVALID_DATA`, and the routine ends there. -/

namespace Sys2Proof.Machine.Driver

variable {c d : CoreState} {n : List Byte} {gaps : List Nat} {reads : List Instr}

theorem isInvalidData_invalidData : isInvalidData (reply .invalidData 0) = true := by
  rw [isInvalidData, replyStatus_reply]
  exact decide_eq_true rfl

/-! ## One command -/

/-- In `(IDLE, 0)` a command that needs `IDLE` follows its own rule (R77). -/
theorem whenPhase_of_idle {s : State} (hidle : s.core.at .idle 0) (done : State) : s.whenPhase .idle done = done := by
  obtain ⟨hph, hcnt⟩ := hidle
  exact State.whenPhase_of_phase (CoreState.pairLegal_of_zero (by simp [hph]) hcnt) nofun hph

theorem performs_clr (c : CoreState) :
    Performs (issue .clr) c (.value (reply .ok 0)) [.clr] CoreState.reset [reply .ok 0] :=
  performs_issue rfl rfl (by rintro s rfl; exact exec_clr s)

/-- `PUSHB` of a byte that fits (R122). -/
theorem performs_pushb (b : Byte) (hidle : c.at .idle 0) (hfit : c.len.toNat + 1 ≤ 1024) :
    Performs (issue (.pushb b)) c (.value (reply .ok 0)) [.pushb b] (c.load [b]) [reply .ok 0] :=
  performs_issue rfl rfl (by
    rintro s rfl
    exact (exec_pushb b s).trans (congrArg _ (State.whenPhase_appendBytes hidle hfit)))

/-- `START` without a message (R142). -/
theorem performs_start_empty (hidle : c.at .idle 0) (hlen : c.len = 0) :
    Performs (issue .start) c (.value (reply .invalidData 0)) [.start] (c.enterError .empty) [reply .invalidData 0] := by
  refine performs_issue rfl rfl ?_
  rintro s rfl
  rw [exec_start, whenPhase_of_idle hidle, if_pos hlen]
  rfl

/-- `PUSHB` with the buffer full (R122). -/
theorem performs_pushb_overflow (b : Byte) (hidle : c.at .idle 0) (hfull : 1024 ≤ c.len.toNat) :
    Performs (issue (.pushb b)) c (.value (reply .invalidData 0)) [.pushb b] (c.enterError .overflow)
      [reply .invalidData 0] := by
  refine performs_issue rfl rfl ?_
  rintro s rfl
  rw [exec_pushb, whenPhase_of_idle hidle]
  rcases s.appendBytes_cases [b] with ⟨hfit, -⟩ | ⟨-, he⟩
  · rw [List.length_singleton] at hfit
    omega
  · exact congrArg _ he

/-- `PUSHB` in `ERROR` changes nothing (R77, R225). -/
theorem performs_pushb_error (b : Byte) (herr : c.at .error 0) :
    Performs (issue (.pushb b)) c (.value (reply .invalidData 0)) [.pushb b] c [reply .invalidData 0] := by
  refine performs_issue rfl rfl ?_
  rintro s rfl
  obtain ⟨hph, hcnt⟩ := herr
  have hpair : s.core.pairLegal = true := CoreState.pairLegal_of_zero (by simp [hph]) hcnt
  obtain ⟨hanswer, -⟩ := (gated_pushb b).gatedBy s hpair
  exact hanswer hph

/-! ## A load that does not fit -/

theorem performs_loadCommands_error (n : List Byte) (herr : c.at .error 0) :
    Performs (issueAll (loadCommands n)) c (.value (List.replicate n.length (reply .invalidData 0))) (loadCommands n) c
      (List.replicate n.length (reply .invalidData 0)) := by
  induction n with
  | nil => exact performs_give [] c
  | cons b n ih =>
    have hall := performs_issueAll_cons (performs_pushb_error b herr) ih
    rwa [← List.replicate_succ', ← List.replicate_succ, ← List.length_cons (a := b)] at hall

/-- A load of more bytes than fit ends in `ERROR`, and one of its responses says so (R124). -/
theorem performs_loadCommands_overflow (hidle : c.at .idle 0) (hbound : c.len.toNat ≤ 1024)
    (hover : 1024 < c.len.toNat + n.length) :
    ∃ qs d rs, Performs (issueAll (loadCommands n)) c (.value qs) (loadCommands n) d rs ∧
      qs.any isInvalidData = true ∧ d.at .error 0 := by
  induction n generalizing c with
  | nil => exact absurd hover (Nat.not_lt.2 hbound)
  | cons b n ih =>
    rw [List.length_cons] at hover
    by_cases hfit : c.len.toNat + 1 ≤ 1024
    · have hlen : (c.load [b]).len.toNat = c.len.toNat + 1 := CoreState.toNat_load_len hfit
      obtain ⟨qs, d, rs, hrest, hany, herr⟩ := ih (c := c.load [b]) hidle (by omega) (by omega)
      refine ⟨_, d, _, performs_issueAll_cons (performs_pushb b hidle hfit) hrest, ?_, herr⟩
      rw [List.any_cons, hany, Bool.or_true]
    · have herr : (c.enterError .overflow).at .error 0 := ⟨rfl, rfl⟩
      refine ⟨_, _, _, performs_issueAll_cons (performs_pushb_overflow b hidle (by omega))
        (performs_loadCommands_error n herr), ?_, herr⟩
      rw [List.any_cons, isInvalidData_invalidData, Bool.true_or]

/-! ## The routine -/

/-- After a response that says so the routine returns `InvalidData` (R253). -/
theorem Performs.andThen_returnInvalidData {α β : Type} {p : Routine α} {f : α → Routine β} {v : α} {sent : List Instr}
    {rs : List Reply} (h : Performs p c (.value v) sent d rs) (hf : f v = returnInvalidData) :
    Performs (Driver.andThen p f) c .invalidData sent d rs where
  answers s hs := by rw [andThen_of_value (h.answers s hs), hf, returnInvalidData_apply]
  reaches := h.reaches

/-- With no byte the routine ends at `START`. -/
theorem performs_hashCommands_nil (c : CoreState) :
    Performs (hashCommands reads gaps []) c .invalidData [.clr, .start] (CoreState.reset.enterError .empty)
      [reply .invalidData 0, reply .ok 0] := by
  have hload : Performs (issueAll (.clr :: loadCommands [])) c (.value [reply .ok 0]) [.clr] CoreState.reset
      [reply .ok 0] := performs_issueAll_cons (is := []) (performs_clr c) (performs_give [] _)
  refine hload.andThen (sent' := [.start]) (rs' := [reply .invalidData 0]) ?_
  simp only [List.any_cons, List.any_nil, isInvalidData_ok, Bool.or_false, Bool.false_eq_true, if_false]
  exact (performs_start_empty ⟨rfl, rfl⟩ rfl).andThen_returnInvalidData (if_pos isInvalidData_invalidData)

/-- With more bytes than the buffer holds the routine ends after the load. -/
theorem performs_hashCommands_overflow (c : CoreState) (hn : 1024 < n.length) :
    ∃ d rs, Performs (hashCommands reads gaps n) c .invalidData (.clr :: loadCommands n) d rs ∧ d.at .error 0 := by
  obtain ⟨qs, d, rs, hload, hany, herr⟩ :=
    performs_loadCommands_overflow (c := CoreState.reset) (n := n) ⟨rfl, rfl⟩ (Nat.zero_le _) (by simpa using hn)
  refine ⟨d, _, (performs_issueAll_cons (performs_clr c) hload).andThen_returnInvalidData (if_pos ?_), herr⟩
  rw [List.any_cons, hany, Bool.or_true]

/-- Settles O52: one run on a length that is admitted; else `START` or a `PUSHB` answers `INVALID_DATA`. -/
theorem commandsHashAnyBytesOfAdmittedLength : Obligations.CommandsHashAnyBytesOfAdmittedLength := by
  refine fun gaps n => ⟨fun hpos hle => ⟨hashCommands_byteReads hpos hle, hashCommands_hexReads hpos hle⟩, ?_⟩
  rintro (hzero | hover) s reads
  · obtain rfl := List.length_eq_zero_iff.1 hzero
    exact ⟨_, (performs_hashCommands_nil s.core).answers s rfl, rfl, rfl⟩
  · obtain ⟨d, rs, hperforms, herr⟩ := performs_hashCommands_overflow s.core hover
    exact ⟨_, hperforms.answers s rfl, herr⟩

end Sys2Proof.Machine.Driver
end

section
/-! `DECODE_UTF8` and `UTF8_ENCODE` (spec/40_input_normalizer.md R101, R105): the well-formed byte sequences are the encodings
of the characters, length by length, so each of the two undoes the other. -/

namespace Sys2Proof.Machine.Normalizer

variable {c : Char} {b0 b1 b2 b3 : Byte} {l m : List Byte} {s : Text} {n : Nat}

/-! ## Bytes and code points as numbers -/

theorem within_iff {b : Byte} {lo hi : Nat} : within b lo hi = true ↔ lo ≤ b.toNat ∧ b.toNat ≤ hi := by
  rw [within, Bool.and_eq_true, decide_eq_true_eq, decide_eq_true_eq]

theorem valid2_iff : valid2 b0 b1 = true ↔
    (0xC2 ≤ b0.toNat ∧ b0.toNat ≤ 0xDF) ∧ 0x80 ≤ b1.toNat ∧ b1.toNat ≤ 0xBF := by
  rw [valid2, Bool.and_eq_true, within_iff, within_iff]

theorem valid3_iff : valid3 b0 b1 b2 = true ↔
    (0xE0 ≤ b0.toNat ∧ b0.toNat ≤ 0xEF) ∧ (0x80 ≤ b1.toNat ∧ b1.toNat ≤ 0xBF) ∧
    (b0.toNat = 0xE0 → 0xA0 ≤ b1.toNat) ∧ (b0.toNat = 0xED → b1.toNat ≤ 0x9F) ∧ 0x80 ≤ b2.toNat ∧ b2.toNat ≤ 0xBF := by
  simp only [valid3, Bool.and_eq_true, within_iff, ← BitVec.toNat_inj, BitVec.reduceToNat]
  split_ifs <;> omega

theorem valid4_iff : valid4 b0 b1 b2 b3 = true ↔
    (0xF0 ≤ b0.toNat ∧ b0.toNat ≤ 0xF4) ∧ (0x80 ≤ b1.toNat ∧ b1.toNat ≤ 0xBF) ∧
    (b0.toNat = 0xF0 → 0x90 ≤ b1.toNat) ∧ (b0.toNat = 0xF4 → b1.toNat ≤ 0x8F) ∧
    (0x80 ≤ b2.toNat ∧ b2.toNat ≤ 0xBF) ∧ 0x80 ≤ b3.toNat ∧ b3.toNat ≤ 0xBF := by
  simp only [valid4, Bool.and_eq_true, within_iff, ← BitVec.toNat_inj, BitVec.reduceToNat]
  split_ifs <;> omega

theorem ofNat_eq {b : Byte} (h : b.toNat = n) : BitVec.ofNat 8 n = b := by
  rw [← h, BitVec.ofNat_toNat, BitVec.setWidth_eq]

theorem toNat_contByte (n : Nat) : (contByte n).toNat = 0x80 + n % 64 := by
  rw [contByte, BitVec.toNat_ofNat]
  omega

theorem contByte_eq {b : Byte} (h : b.toNat = 0x80 + n % 64) : contByte n = b := ofNat_eq h

/-- A character is no surrogate and not above U+10FFFF. -/
theorem toNat_bounds (c : Char) : c.toNat < 0xD800 ∨ 0xDFFF < c.toNat ∧ c.toNat < 0x110000 := c.valid

theorem toNat_charOfNat (hn : n < 0xD800 ∨ 0xDFFF < n ∧ n < 0x110000) : (Char.ofNat n).toNat = n := by
  rw [Char.toNat_ofNat, if_pos hn]

theorem charOfNat_eq (h : n = c.toNat) : Char.ofNat n = c := by
  rw [h, Char.ofNat_toNat]

/-! ## The encodings, length by length -/

theorem encodeChar_one (h : c.toNat < 0x80) : encodeChar c = [BitVec.ofNat 8 c.toNat] := if_pos h

theorem encodeChar_two (h : 0x80 ≤ c.toNat) (h' : c.toNat < 0x800) :
    encodeChar c = [BitVec.ofNat 8 (0xC0 + c.toNat / 64), contByte c.toNat] := by
  rw [encodeChar, if_neg (Nat.not_lt.2 h), if_pos h']

theorem encodeChar_three (h : 0x800 ≤ c.toNat) (h' : c.toNat < 0x10000) :
    encodeChar c = [BitVec.ofNat 8 (0xE0 + c.toNat / 4096), contByte (c.toNat / 64), contByte c.toNat] := by
  rw [encodeChar, if_neg (by omega), if_neg (Nat.not_lt.2 h), if_pos h']

theorem encodeChar_four (h : 0x10000 ≤ c.toNat) : encodeChar c =
    [BitVec.ofNat 8 (0xF0 + c.toNat / 262144), contByte (c.toNat / 4096), contByte (c.toNat / 64), contByte c.toNat] := by
  rw [encodeChar, if_neg (by omega), if_neg (by omega), if_neg (Nat.not_lt.2 h)]

/-! ## The well-formed sequences -/

/-- The bytes are a well-formed sequence and this is its character (`spells_encodeChar` and
`Spells.encodeChar_eq` tie it to the encoder, `Spells.decodeFirst_append` and `spells_of_decodeFirst` to the decoder). -/
inductive Spells (c : Char) : List Byte → Prop
  | one {b0 : Byte} (h : b0.toNat < 0x80) (hc : c.toNat = b0.toNat) : Spells c [b0]
  | two {b0 b1 : Byte} (h : valid2 b0 b1 = true) (hc : c.toNat = b0.toNat % 32 * 64 + low6 b1) : Spells c [b0, b1]
  | three {b0 b1 b2 : Byte} (h : valid3 b0 b1 b2 = true)
      (hc : c.toNat = (b0.toNat % 16 * 64 + low6 b1) * 64 + low6 b2) : Spells c [b0, b1, b2]
  | four {b0 b1 b2 b3 : Byte} (h : valid4 b0 b1 b2 b3 = true)
      (hc : c.toNat = ((b0.toNat % 8 * 64 + low6 b1) * 64 + low6 b2) * 64 + low6 b3) : Spells c [b0, b1, b2, b3]

theorem Spells.encodeChar_eq (h : Spells c l) : encodeChar c = l := by
  cases h with
  | @one b0 h hc => rw [encodeChar_one (hc ▸ h), ofNat_eq hc.symm]
  | @two b0 b1 h hc =>
    rw [valid2_iff] at h
    unfold low6 at hc
    rw [encodeChar_two (by omega) (by omega), ofNat_eq (b := b0) (by omega), contByte_eq (b := b1) (by omega)]
  | @three b0 b1 b2 h hc =>
    rw [valid3_iff] at h
    unfold low6 at hc
    rw [encodeChar_three (by omega) (by omega), ofNat_eq (b := b0) (by omega), contByte_eq (b := b1) (by omega),
      contByte_eq (b := b2) (by omega)]
  | @four b0 b1 b2 b3 h hc =>
    rw [valid4_iff] at h
    unfold low6 at hc
    rw [encodeChar_four (by omega), ofNat_eq (b := b0) (by omega), contByte_eq (b := b1) (by omega),
      contByte_eq (b := b2) (by omega), contByte_eq (b := b3) (by omega)]

theorem spells_encodeChar (c : Char) : Spells c (encodeChar c) := by
  have hc := toNat_bounds c
  by_cases h1 : c.toNat < 0x80
  · rw [encodeChar_one h1]
    refine .one ?_ ?_ <;> simp only [BitVec.toNat_ofNat] <;> omega
  by_cases h2 : c.toNat < 0x800
  · rw [encodeChar_two (by omega) h2]
    refine .two (valid2_iff.2 ?_) ?_ <;> simp only [low6, BitVec.toNat_ofNat, toNat_contByte] <;> omega
  by_cases h3 : c.toNat < 0x10000
  · rw [encodeChar_three (by omega) h3]
    refine .three (valid3_iff.2 ?_) ?_ <;> simp only [low6, BitVec.toNat_ofNat, toNat_contByte] <;> omega
  · rw [encodeChar_four (by omega)]
    refine .four (valid4_iff.2 ?_) ?_ <;> simp only [low6, BitVec.toNat_ofNat, toNat_contByte] <;> omega

/-! ## The decoder -/

/-- The decoder reads a well-formed sequence as its character, whatever follows. -/
theorem Spells.decodeFirst_append (h : Spells c l) (m : List Byte) :
    decodeFirst (l ++ m) = some (c, l.length - 1) := by
  cases h with
  | @one b0 h hc =>
    simp only [List.cons_append, decodeFirst, if_pos h, charOfNat_eq hc.symm]
    rfl
  | @two b0 b1 h hc =>
    have hv := valid2_iff.1 h
    have h1 : ¬ b0.toNat < 0x80 := by omega
    simp only [List.cons_append, decodeFirst, if_neg h1, if_pos h, charOfNat_eq hc.symm]
    rfl
  | @three b0 b1 b2 h hc =>
    have hv := valid3_iff.1 h
    have h1 : ¬ b0.toNat < 0x80 := by omega
    have h2 : ¬ valid2 b0 b1 = true := by rw [valid2_iff]; omega
    simp only [List.cons_append, decodeFirst, if_neg h1, if_neg h2, if_pos h, charOfNat_eq hc.symm]
    rfl
  | @four b0 b1 b2 b3 h hc =>
    have hv := valid4_iff.1 h
    have h1 : ¬ b0.toNat < 0x80 := by omega
    have h2 : ¬ valid2 b0 b1 = true := by rw [valid2_iff]; omega
    have h3 : ¬ valid3 b0 b1 b2 = true := by rw [valid3_iff]; omega
    simp only [List.cons_append, decodeFirst, if_neg h1, if_neg h2, if_neg h3, if_pos h, charOfNat_eq hc.symm]
    rfl

/-- What the decoder reads is a well-formed sequence. -/
theorem spells_of_decodeFirst (h : decodeFirst m = some (c, n)) : ∃ l t, m = l ++ t ∧ Spells c l := by
  unfold decodeFirst at h
  split at h
  · cases h
  next b0 rest =>
  split_ifs at h with h1
  · cases h
    exact ⟨[b0], rest, rfl, .one h1 (toNat_charOfNat (by omega))⟩
  split at h
  next b1 rest =>
    split_ifs at h with h2
    · cases h
      have hv := valid2_iff.1 h2
      exact ⟨[b0, b1], rest, rfl, .two h2 (toNat_charOfNat (by unfold low6; omega))⟩
    split at h
    next b2 rest =>
      split_ifs at h with h3
      · cases h
        have hv := valid3_iff.1 h3
        exact ⟨[b0, b1, b2], rest, rfl, .three h3 (toNat_charOfNat (by unfold low6; omega))⟩
      split at h
      next b3 rest =>
        split_ifs at h with h4
        · cases h
          have hv := valid4_iff.1 h4
          exact ⟨[b0, b1, b2, b3], rest, rfl, .four h4 (toNat_charOfNat (by unfold low6; omega))⟩
      · cases h
    · cases h
  · cases h

/-! ## Texts -/

theorem decodeSkipping_append (l m : List Byte) : decodeSkipping l.length (l ++ m) = decodeUtf8 m := by
  induction l with
  | nil => rfl
  | cons b l ih => exact ih

theorem Spells.decodeUtf8_append (h : Spells c l) (m : List Byte) :
    decodeUtf8 (l ++ m) = (decodeUtf8 m).map (c :: ·) := by
  have hfirst := h.decodeFirst_append m
  rcases l with _ | ⟨b, l⟩
  · cases h
  · rw [decodeUtf8, List.cons_append, decodeSkipping, ← List.cons_append, hfirst]
    exact congrArg (Option.map (c :: ·)) (decodeSkipping_append l m)

theorem decodeUtf8_encodeChar_append (c : Char) (m : List Byte) :
    decodeUtf8 (encodeChar c ++ m) = (decodeUtf8 m).map (c :: ·) :=
  (spells_encodeChar c).decodeUtf8_append m

/-- Bytes are none, or begin with the encoding of a character, or are `InvalidData`. -/
theorem decodeUtf8_cases (m : List Byte) :
    m = [] ∨ (∃ c t, m = encodeChar c ++ t) ∨ decodeUtf8 m = none := by
  rcases m with _ | ⟨b, m⟩
  · exact .inl rfl
  · cases hfirst : decodeFirst (b :: m) with
    | none => exact .inr (.inr (by rw [decodeUtf8, decodeSkipping, hfirst]))
    | some p =>
      obtain ⟨l, t, hm, hspells⟩ := spells_of_decodeFirst hfirst
      exact .inr (.inl ⟨p.1, t, by rw [hm, hspells.encodeChar_eq]⟩)

theorem decodeUtf8_encodeUtf8 (s : Text) : decodeUtf8 (encodeUtf8 s) = some s := by
  induction s with
  | nil => rfl
  | cons c s ih => rw [encodeUtf8, List.flatMap_cons, decodeUtf8_encodeChar_append, ← encodeUtf8, ih, Option.map_some]

theorem encodeUtf8_of_decodeUtf8 (h : decodeUtf8 m = some s) : encodeUtf8 s = m := by
  induction s generalizing m with
  | nil =>
    rcases decodeUtf8_cases m with rfl | ⟨c, t, rfl⟩ | hnone
    · rfl
    · rw [decodeUtf8_encodeChar_append, Option.map_eq_some_iff] at h
      obtain ⟨_, -, hcons⟩ := h
      cases hcons
    · cases hnone.symm.trans h
  | cons c s ih =>
    rcases decodeUtf8_cases m with rfl | ⟨c', t, rfl⟩ | hnone
    · cases h
    · rw [decodeUtf8_encodeChar_append, Option.map_eq_some_iff] at h
      obtain ⟨s', ht, hcons⟩ := h
      cases hcons
      rw [encodeUtf8, List.flatMap_cons, ← encodeUtf8, ih ht]
    · cases hnone.symm.trans h

theorem normalizeBytes_encodeUtf8 (lower : Text → Text) (s : Text) :
    normalizeBytes lower (encodeUtf8 s) = normalizeText lower s := by
  rw [normalizeBytes, decodeUtf8_encodeUtf8]

theorem normalizeBytes_of_none (lower : Text → Text) (h : decodeUtf8 m = none) : normalizeBytes lower m = none := by
  rw [normalizeBytes, h]

/-- Settles O56: the encoder and the decoder agree on one character, and so, by induction, on a text. -/
theorem utf8DecodingInvertsEncoding : Obligations.Utf8DecodingInvertsEncoding := by
  refine fun lower => ⟨fun s => ⟨decodeUtf8_encodeUtf8 s, normalizeBytes_encodeUtf8 lower s⟩,
    fun _ _ => encodeUtf8_of_decodeUtf8, fun m hm => ?_⟩
  have hnone : decodeUtf8 m = none :=
    Option.eq_none_iff_forall_ne_some.2 fun s hs => hm s (encodeUtf8_of_decodeUtf8 hs)
  exact ⟨hnone, normalizeBytes_of_none lower hnone⟩

end Sys2Proof.Machine.Normalizer
end

section
/-! `LOWER` on the characters below 0x80 (spec/40_input_normalizer.md R103, R104, R106): what it makes of each of them, in its
place, and that the hash does not see their case. -/

namespace Sys2Proof.Machine.Normalizer

variable {f : Char → Char} {lower : Text → Text} {s t : Text} {pieces : List Text}

/-- The characters below 0x80 of a text. -/
def asciiOf (s : Text) : Text := s.filter fun c => decide (c.toNat < 0x80)

/-- What a text function that acts on the characters below 0x80 makes of one character. -/
def IsPiece (f : Char → Char) (c : Char) (piece : Text) : Prop := c.toNat < 0x80 → piece = [f c]

theorem asciiOf_cons_of_lt {c : Char} (hc : c.toNat < 0x80) : asciiOf (c :: s) = c :: asciiOf s :=
  List.filter_cons_of_pos (decide_eq_true hc)

theorem asciiOf_cons_of_not_lt {c : Char} (hc : ¬ c.toNat < 0x80) : asciiOf (c :: s) = asciiOf s :=
  List.filter_cons_of_neg fun h => hc (of_decide_eq_true h)

/-! ## A text cut into the pieces of its characters -/

theorem forall₂_append_left {R : Char → Text → Prop} (h : List.Forall₂ R (s ++ t) pieces) :
    ∃ ps qs, pieces = ps ++ qs ∧ List.Forall₂ R s ps ∧ List.Forall₂ R t qs :=
  ⟨pieces.take s.length, pieces.drop s.length, (List.take_append_drop ..).symm,
    (List.forall₂_take_append _ _ _ h.flip).flip, (List.forall₂_drop_append _ _ _ h.flip).flip⟩

theorem sublist_flatten (h : List.Forall₂ (IsPiece f) s pieces) : ((asciiOf s).map f).Sublist pieces.flatten := by
  induction h with
  | nil => exact List.Sublist.slnil
  | @cons c piece s pieces hpiece _ ih =>
    by_cases hc : c.toNat < 0x80
    · rw [asciiOf_cons_of_lt hc, hpiece hc]
      exact ih.cons_cons (f c)
    · rw [asciiOf_cons_of_not_lt hc]
      exact ih.trans (List.sublist_append_right piece pieces.flatten)

theorem flatten_eq_map (h : List.Forall₂ (IsPiece f) s pieces) (hs : ∀ c ∈ s, c.toNat < 0x80) :
    pieces.flatten = s.map f := by
  induction h with
  | nil => rfl
  | cons hpiece _ ih =>
    rw [List.forall_mem_cons] at hs
    obtain ⟨hc, hs⟩ := hs
    rw [List.flatten_cons, hpiece hc, ih hs]
    rfl

/-! ## What `LOWER` does -/

theorem LowerOk.sublist (h : LowerOk lower) (s : Text) : ((asciiOf s).map asciiLower).Sublist (lower s) := by
  obtain ⟨pieces, hlower, hpieces⟩ := h.onAscii s
  rw [hlower]
  exact sublist_flatten hpieces

/-- A character below 0x80 keeps its place among the others. -/
theorem LowerOk.append_cons (h : LowerOk lower) (s t : Text) {c : Char} (hc : c.toNat < 0x80) :
    ∃ x y, lower (s ++ c :: t) = x ++ asciiLower c :: y ∧ ((asciiOf s).map asciiLower).Sublist x ∧
      ((asciiOf t).map asciiLower).Sublist y := by
  obtain ⟨pieces, hlower, hpieces⟩ := h.onAscii (s ++ c :: t)
  obtain ⟨ps, _, rfl, hps, hrest⟩ := forall₂_append_left hpieces
  obtain ⟨piece, qs, hpiece, hqs, rfl⟩ := List.forall₂_cons_left_iff.1 hrest
  refine ⟨ps.flatten, qs.flatten, ?_, sublist_flatten hps, sublist_flatten hqs⟩
  rw [hlower, List.flatten_append, List.flatten_cons, hpiece hc]
  rfl

theorem LowerOk.eq_map (h : LowerOk lower) (hs : ∀ c ∈ s, c.toNat < 0x80) : lower s = s.map asciiLower := by
  obtain ⟨pieces, hlower, hpieces⟩ := h.onAscii s
  exact hlower.trans (flatten_eq_map hpieces hs)

/-! ## The encoded length -/

theorem asciiLower_lt {c : Char} (hc : c.toNat < 0x80) : (asciiLower c).toNat < 0x80 := by
  rw [toNat_asciiLower]
  split_ifs <;> omega

theorem length_encodeUtf8_of_ascii (hs : ∀ c ∈ s, c.toNat < 0x80) : (encodeUtf8 s).length = s.length := by
  induction s with
  | nil => rfl
  | cons c s ih =>
    rw [List.forall_mem_cons] at hs
    obtain ⟨hc, hs⟩ := hs
    rw [encodeUtf8, List.flatMap_cons, List.length_append, ← encodeUtf8, ih hs, encodeChar_one hc, List.length_singleton,
      List.length_cons, Nat.add_comm]

/-- Settles O58: the text is cut into the pieces that `LOWER` makes of its characters. -/
theorem lowerActsOnEveryLetter : Obligations.LowerActsOnEveryLetter := by
  refine fun lower h => ⟨h.sublist, fun s t c hc => h.append_cons s t hc, fun s hs => ⟨h.eq_map hs, ?_⟩⟩
  have hlower : ∀ c ∈ s.map asciiLower, c.toNat < 0x80 :=
    List.forall_mem_map.2 fun c hc => asciiLower_lt (hs c hc)
  rw [h.eq_map hs, length_encodeUtf8_of_ascii hlower, List.length_map]

/-! ## The length check -/

theorem checkLen_iff {n : List Byte} : checkLen n = true ↔ 1 ≤ n.length ∧ n.length ≤ 1024 := by
  simp [checkLen]

/-- Settles O55: by the two branches of the length check. -/
theorem normalizedLengthIsAdmitted : Obligations.NormalizedLengthIsAdmitted := by
  refine fun lower s => ⟨fun hpos hle => if_pos (checkLen_iff.2 ⟨hpos, hle⟩), fun hlen => if_neg ?_, fun n hn => ?_⟩
  · rw [checkLen_iff]
    omega
  · obtain ⟨hlen, heq⟩ := Option.ite_none_right_eq_some.1 hn
    cases heq
    exact ⟨rfl, checkLen_iff.1 hlen⟩

/-! ## The hash -/

theorem normalizeText_eq_of_lower (h : lower s = lower t) : normalizeText lower s = normalizeText lower t := by
  simp only [normalizeText, h]

theorem hashString_eq_of_lower (h : lower s = lower t) : hashString lower s = hashString lower t :=
  congrArg (Option.map Digest.hexDigest) (normalizeText_eq_of_lower h)

theorem hashBytes_eq_of_lower (h : lower s = lower t) :
    hashBytes lower (encodeUtf8 s) = hashBytes lower (encodeUtf8 t) := by
  rw [hashBytes, hashBytes, normalizeBytes_encodeUtf8, normalizeBytes_encodeUtf8, normalizeText_eq_of_lower h]

/-- Settles O57: two texts with the same lowercased form have the same hash. -/
theorem hashIgnoresLetterCase : Obligations.HashIgnoresLetterCase := by
  refine fun lower h => ⟨fun s => hashString_eq_of_lower (h.idempotent s), fun upper hupper s hkeeps => ?_,
    fun s t hs ht hmap => hashString_eq_of_lower ?_⟩
  · have hundone := hupper.undone s hkeeps
    exact ⟨hashString_eq_of_lower hundone, hashBytes_eq_of_lower hundone⟩
  · rw [h.eq_map hs, h.eq_map ht, hmap]

end Sys2Proof.Machine.Normalizer
end

section
/-! The buffer loader (spec/41_buffer_loader.md): what an append changes and what it leaves (R122, R123), and the frames of
`CLR` and `LOAD` one behind the other, with nothing between them (R124). -/

namespace Sys2Proof.Machine

variable {c d e : CoreState} {s : State} {sent sent' : List Instr} {rs rs' : List Reply} {bs n : List Byte}

/-! ## An append of bytes -/

/-- The buffer after an append: the stored bytes from `LEN` on, everywhere else what was there. -/
theorem CoreState.byte_load (hwf : c.buf.wf = true) (hfit : c.len.toNat + bs.length ≤ 1024) (x : Nat) :
    (c.load bs).buf.byte x =
      if c.len.toNat ≤ x ∧ x < c.len.toNat + bs.length then bs.getD (x - c.len.toNat) 0 else c.buf.byte x :=
  Memory.byte_writeBytes hwf hfit x

/-- In `(IDLE, 0)` a push of bytes that do not all fit only enters the error state. -/
theorem State.whenPhase_appendBytes_overflow (hidle : s.core.at .idle 0) (hover : 1024 < s.core.len.toNat + bs.length) :
    s.whenPhase .idle (s.appendBytes bs) = s.raiseInvalidData .overflow := by
  rw [Driver.whenPhase_of_idle hidle]
  rcases s.appendBytes_cases bs with ⟨hfit, -⟩ | ⟨-, he⟩
  · omega
  · exact he

/-- Settles O14: the append of one byte. -/
theorem pushbAppendsOneByteOrOverflows : Obligations.PushbAppendsOneByteOrOverflows := by
  obtain ⟨-, -, hframe, -⟩ := framePatternsOfTheCommands
  refine fun b => ⟨hframe b, (gated_pushb b).gatedBy, fun s hidle hwf => ⟨fun hlen => ?_, fun hlen => ?_⟩⟩
  · have hfit : s.core.len.toNat + [b].length ≤ 1024 := Nat.succ_le_succ hlen
    refine ⟨(s.withCore (s.core.load [b])).respond .ok 0,
      (exec_pushb b s).trans (congrArg _ (State.whenPhase_appendBytes hidle hfit)), fun x => ?_,
      CoreState.toNat_load_len hfit, rfl⟩
    refine (CoreState.byte_load hwf hfit x).trans ?_
    by_cases hx : x = s.core.len.toNat
    · simp [hx]
    · rw [if_neg hx, if_neg (by rw [List.length_singleton]; omega)]
  · exact (exec_pushb b s).trans (congrArg _ (State.whenPhase_appendBytes_overflow hidle (Nat.succ_lt_succ hlen)))

/-- Settles O15: the append of the four bytes of the word. -/
theorem pushwAppendsFourBytesOrOverflows : Obligations.PushwAppendsFourBytesOrOverflows := by
  obtain ⟨-, -, -, hframe, -⟩ := framePatternsOfTheCommands
  refine fun w => ⟨hframe w, (gated_pushw w).gatedBy, fun s hidle hwf => ⟨fun hlen => ?_, fun hlen => ?_⟩⟩
  · have hfit : s.core.len.toNat + (leBytes w).length ≤ 1024 := Nat.add_le_add_right hlen 4
    refine ⟨(s.withCore (s.core.load (leBytes w))).respond .ok 0,
      (exec_pushw w s).trans (congrArg _ (State.whenPhase_appendBytes hidle hfit)), fun j hj => ?_, fun x hx => ?_,
      CoreState.toNat_load_len hfit, rfl⟩
    · refine (congrArg _ (CoreState.byte_load hwf hfit _)).trans ?_
      rw [Memory.length_leBytes, if_pos (by omega), Nat.add_sub_cancel_left, toNat_getD_leBytes w hj]
    · exact (CoreState.byte_load hwf hfit x).trans (if_neg (by rw [Memory.length_leBytes]; omega))
  · exact (exec_pushw w s).trans
      (congrArg _ (State.whenPhase_appendBytes_overflow hidle (Nat.add_lt_add_right hlen 4)))

/-- Settles O13: `CLR` puts the reset core into any state. -/
theorem clrClearsEverythingInEveryPhase : Obligations.ClrClearsEverythingInEveryPhase := by
  obtain ⟨-, hframe, -⟩ := framePatternsOfTheCommands
  refine ⟨hframe, fun s => ⟨s.clear.respond .ok 0, exec_clr s, Memory.byte_nil, ?_⟩⟩
  exact ⟨rfl, rfl, rfl, rfl, rfl, rfl, rfl, rfl, rfl, rfl, rfl, rfl, rfl, rfl, rfl⟩

/-! ## Frames one behind the other -/

/-- From the core `c` exactly these commands, with no other turn between them, lead to the core `d` with these responses,
whatever turns wait behind them. -/
def CoreState.Sends (c : CoreState) (sent : List Instr) (d : CoreState) (rs : List Reply) : Prop :=
  ∀ s : State, s.core = c →
    Host.Core.run core sent.length { s with turns := sent.map Driver.send ++ s.turns } = .next (s.after d rs)

theorem CoreState.Sends.refl (c : CoreState) : c.Sends [] c [] := by
  rintro s rfl
  rfl

theorem CoreState.Sends.trans (h : c.Sends sent d rs) (h' : d.Sends sent' e rs') :
    c.Sends (sent ++ sent') e (rs' ++ rs) := by
  intro s hs
  rw [List.length_append, List.map_append, List.append_assoc,
    run_add (h { s with turns := sent'.map Driver.send ++ s.turns } hs)]
  exact (h' (s.after d rs) rfl).trans (congrArg _ (s.after_after d e rs rs'))

/-- The run in which no other turn waits. -/
theorem CoreState.Sends.run {k : Nat} (h : s.core.Sends sent d rs) (hk : sent.length = k) :
    Host.Core.run core k { s with turns := sent.map Driver.send } =
      .next { core := d, turns := [], responses := rs ++ s.responses } := by
  have hrun := h { s with turns := [] } rfl
  rw [hk] at hrun
  rwa [List.append_nil] at hrun

namespace Driver

/-- A command that a routine issues is a run of one step. -/
theorem Performs.sends {i : Instr} {r : Reply} (h : Performs (issue i) c (.value r) [i] d rs) : c.Sends [i] d rs := by
  intro s hs
  obtain ⟨⟨⟩, t, htake, hreply⟩ := andThen_eq_value.1 (h.answers s hs)
  have ht : t = s.after d rs := by
    unfold newestReply at hreply
    split at hreply
    · exact congrArg Prod.snd hreply
    · cases hreply
  exact ht ▸ run_of_takeNow htake

/-! ## The load -/

/-- `PUSHB` of the bytes `n`, each with the same response `r`, where `after m` is the core once the bytes `m` are sent. -/
theorem sends_loadCommands {after : List Byte → CoreState} {r : Reply}
    (hpush : ∀ m b, m.length < n.length →
      Performs (issue (.pushb b)) (after m) (.value r) [.pushb b] (after (m ++ [b])) [r]) :
    (after []).Sends (loadCommands n) (after n) (List.replicate n.length r) := by
  induction n using List.reverseRecOn with
  | nil => exact .refl _
  | append_singleton n b ih =>
    rw [List.length_append, List.length_singleton] at hpush ⊢
    rw [loadCommands, List.map_append]
    exact (ih fun m b hm => hpush m b (Nat.lt_succ_of_lt hm)).trans (hpush n b (Nat.lt_succ_self _)).sends

/-- Bytes that fit are loaded. -/
theorem sends_loadCommands_of_fits (hidle : c.at .idle 0) (hfit : c.len.toNat + n.length ≤ 1024) :
    c.Sends (loadCommands n) (c.load n) (List.replicate n.length (reply .ok 0)) := by
  have hload := sends_loadCommands (n := n) (after := c.load) (r := reply .ok 0) fun m b hm => by
    rw [← CoreState.load_load (by omega)]
    exact performs_pushb b hidle (by rw [CoreState.toNat_load_len] <;> omega)
  rwa [CoreState.load_nil] at hload

/-- In `ERROR` every byte is answered `INVALID_DATA`, and the core stays (R225). -/
theorem sends_loadCommands_of_error (n : List Byte) (herr : c.at .error 0) :
    c.Sends (loadCommands n) c (List.replicate n.length (reply .invalidData 0)) :=
  sends_loadCommands (after := fun _ => c) fun _ b _ => performs_pushb_error b herr

/-- `CLR` and a message that fits. -/
theorem sends_clr_load (c : CoreState) (hn : n.length ≤ 1024) :
    c.Sends (.clr :: loadCommands n) (CoreState.reset.load n) (List.replicate (n.length + 1) (reply .ok 0)) := by
  rw [List.replicate_succ']
  exact (performs_clr c).sends.trans (sends_loadCommands_of_fits ⟨rfl, rfl⟩ (by simpa using hn))

theorem toNat_len_reset_load (hn : n.length ≤ 1024) : (CoreState.reset.load n).len.toNat = n.length :=
  (CoreState.toNat_load_len (by simpa using hn)).trans (Nat.zero_add _)

/-- `CLR` and a message that does not fit: 1024 bytes are loaded, the next one overflows, the rest meets `ERROR`. -/
theorem sends_clr_load_overflow (c : CoreState) {m k : List Byte} {b : Byte} (hm : m.length = 1024) :
    c.Sends (.clr :: loadCommands (m ++ b :: k)) ((CoreState.reset.load m).enterError .overflow)
      (List.replicate (k.length + 1) (reply .invalidData 0) ++ List.replicate 1025 (reply .ok 0)) := by
  have hfits := sends_clr_load c hm.le
  have hfull : 1024 ≤ (CoreState.reset.load m).len.toNat := by rw [toNat_len_reset_load hm.le, hm]
  have hover := (performs_pushb_overflow b ⟨rfl, rfl⟩ hfull).sends
  have hrest := sends_loadCommands_of_error k (c := (CoreState.reset.load m).enterError .overflow) ⟨rfl, rfl⟩
  rw [loadCommands, List.map_append, List.replicate_succ']
  rw [hm] at hfits
  exact hfits.trans (hover.trans hrest)

theorem exists_split_at_1024 (hn : 1024 < n.length) : ∃ m b k, n = m ++ b :: k ∧ m.length = 1024 :=
  ⟨n.take 1024, n[1024], n.drop 1025, by rw [← List.drop_eq_getElem_cons hn, List.take_append_drop],
    List.length_take_of_le hn.le⟩

/-- Settles O50: the message fits, or its first 1024 bytes do and the next one overflows. -/
theorem loaderContract : Obligations.LoaderContract := by
  intro s n
  have hlength : (Instr.clr :: loadCommands n).length = n.length + 1 := congrArg (· + 1) (List.length_map _)
  rcases Nat.lt_or_ge 1024 n.length with hn | hn
  · obtain ⟨m, b, k, rfl, hm⟩ := exists_split_at_1024 hn
    have hcount : (m ++ b :: k).length - 1024 = k.length + 1 := by
      rw [List.length_append, hm, Nat.add_sub_cancel_left, List.length_cons]
    refine ⟨_, (sends_clr_load_overflow s.core hm).run hlength, rfl, fun hle => absurd hle hn.not_ge, fun _ => ?_⟩
    rw [hcount]
    exact ⟨⟨rfl, rfl⟩, rfl, (toNat_len_reset_load hm.le).trans hm, rfl⟩
  · exact ⟨_, (sends_clr_load s.core hn).run hlength, rfl,
      fun _ => ⟨⟨rfl, rfl⟩, toNat_len_reset_load hn, byte_reset_load hn, rfl⟩, fun hlt => absurd hlt hn.not_gt⟩

end Driver

end Sys2Proof.Machine
end

section
/-! The sequencer's turns row by row (spec/42_sequencer_control.md R144), along a whole run (R146, R147, R261), and the
commands of sequencer control (R141 to R143). -/

namespace Sys2Proof.Machine

variable {c : CoreState} {s : State} {i : Instr} {ph ph' : Phase} {n n' : Nat}

/-! ## A run of sequencer turns -/

theorem State.sequencerNext_of_nil (h : s.turns = []) : s.sequencerNext := .inl h

/-- The start of a run, as `START` leaves it (R142). -/
theorem CoreState.inRun_of_expand_zero (h : c.at .expand 0) : c.InRun 0 := by
  obtain ⟨hph, hcnt⟩ := h
  exact ⟨pairLegal_of_zero (by simp [hph]) hcnt, .inl ⟨busy_iff.2 (.inl hph), by simp only [progress, hph, hcnt]⟩⟩

/-- Before its 146th turn a run is busy (R261). -/
theorem CoreState.InRun.busy_of_lt (h : c.InRun n) (hn : n < 146) : c.busy = true := by
  rcases h.place with ⟨hbusy, -⟩ | ⟨-, hle⟩
  · exact hbusy
  · omega

/-- When no turn waits, only the sequencer moves (R146). -/
theorem run_sequenced (hpair : s.core.pairLegal = true) (hturns : s.turns = []) (n : Nat) :
    Host.Core.run core n s = .next (s.withCore (CoreState.sequenced^[n] s.core)) := by
  induction n generalizing s with
  | zero => rfl
  | succ n ih =>
    have hstep := step_sequenced (State.sequencerNext_of_nil hturns).nextTurn hpair
    have htake : s.takeTurn = s := State.ext_fields rfl (by rw [State.takeTurn_turns, hturns]; rfl) rfl
    rw [htake] at hstep
    have hpair' := (CoreState.sequencerMove_sequenced hpair).pairLegal hpair
    have hrest := ih (s := s.withCore s.core.sequenced) hpair' hturns
    rw [run_succ_of_step hstep, Function.iterate_succ_apply]
    exact hrest

/-- Settles O33: after `n` turns of the sequencer the core is at place `n` of its run. -/
theorem runHasExactly146MicroOperations : Obligations.RunHasExactly146MicroOperations := by
  intro s hstart hturns n hn
  have hrun : s.core.InRun 0 := CoreState.inRun_of_expand_zero hstart
  have hplace : (CoreState.sequenced^[n] s.core).InRun n := by
    simpa only [Nat.zero_add] using hrun.iterate n
  exact ⟨_, run_sequenced hrun.legal hturns n, hplace.done_iff.trans ⟨hn.antisymm, Eq.ge⟩, hplace.busy_of_lt⟩

/-- Settles O32: a busy core is within a run, and one turn later it still is. -/
theorem busyStepNeverRaisesAnError : Obligations.BusyStepNeverRaisesAnError := by
  intro s hpair hbusy hnext
  have hmove := CoreState.sequencerMove_sequenced hpair
  refine ⟨_, step_sequenced hnext.nextTurn hpair, ?_, hmove.ecause_eq, rfl, rfl⟩
  rcases (CoreState.inRun_of_busy hpair hbusy).sequenced.place with ⟨hbusy', -⟩ | ⟨hdone, -⟩
  · exact .inl hbusy'
  · exact .inr (CoreState.done_iff.2 hdone)

/-! ## The rows of the sequencer's table -/

theorem CoreState.sequenced_at_expand (h : c.at .expand n) (hn : n < 63) : c.sequenced.at .expand (n + 1) := by
  obtain ⟨hph, rfl⟩ := h
  rw [sequenced_expand hph]
  rcases c.xstep_pair (i := c.cnt.toNat) (by omega) with ⟨hlast, -⟩ | ⟨-, hph', hcnt'⟩
  · omega
  · exact ⟨hph'.trans hph, hcnt'⟩

theorem CoreState.sequenced_at_expand_last (h : c.at .expand 63) : c.sequenced.at .init 0 := by
  obtain ⟨hph, hcnt⟩ := h
  rw [sequenced_expand hph, hcnt]
  exact ⟨xstep_ph 63 c, congrArg BitVec.toNat (xstep_cnt 63 c)⟩

theorem CoreState.sequenced_at_init (h : c.ph = .init) : c.sequenced.at .round 0 :=
  sequenced_init h ▸ ⟨rfl, rfl⟩

theorem CoreState.sequenced_at_round (h : c.at .round n) (hn : n < 79) : c.sequenced.at .round (n + 1) := by
  obtain ⟨hph, rfl⟩ := h
  rw [sequenced_round hph]
  rcases c.roundStep_pair _ _ (t := c.cnt.toNat) (by omega) with ⟨hlast, -⟩ | ⟨-, hph', hcnt'⟩
  · omega
  · exact ⟨hph'.trans hph, hcnt'⟩

theorem CoreState.sequenced_at_round_last (h : c.at .round 79) : c.sequenced.at .final 0 := by
  obtain ⟨hph, hcnt⟩ := h
  rw [sequenced_round hph, hcnt]
  exact ⟨roundStep_ph _ _ 79 c, congrArg BitVec.toNat (roundStep_cnt _ _ 79 c)⟩

theorem CoreState.sequenced_at_final (h : c.at .final 0) : c.sequenced.at .done 0 := by
  obtain ⟨hph, hcnt⟩ := h
  exact sequenced_final hph ▸ ⟨rfl, hcnt⟩

/-- The sequencer word of a pair (R78). -/
theorem CoreState.seqWord_of_at (h : c.at ph n) : c.seqWord = packSeq ph.code (BitVec.ofNat 7 n) := by
  obtain ⟨rfl, rfl⟩ := h
  rw [seqWord, BitVec.ofNat_toNat, BitVec.setWidth_eq]

/-- The pair that encodes a micro-operation selects it (R78). -/
theorem CoreState.decodeSeq_of_encode (hat : c.at ph n) (hwf : i.wellFormed = true)
    (henc : encode i = .seq (packSeq ph.code (BitVec.ofNat 7 n))) : decodeSeq c.seqWord = .instr i := by
  have h := decode_encode hwf
  rwa [henc, ← seqWord_of_at hat] at h

theorem CoreState.pairLegal_of_decodeSeq (h : decodeSeq c.seqWord = .instr i) : c.pairLegal = true := by
  rw [pairLegal, h]
  rfl

/-- A sequencer turn does the micro-operation that the pair encodes (R144). -/
theorem step_of_encode (hnext : s.sequencerNext) (hat : s.core.at ph n) (hwf : i.wellFormed = true)
    (henc : encode i = .seq (packSeq ph.code (BitVec.ofNat 7 n))) : step s = exec i s.takeTurn :=
  stepRunsTheSelectedMicroOperation s i hnext (CoreState.decodeSeq_of_encode hat hwf henc)

/-- One row of the table: the micro-operation that the pair encodes is done, and the pair moves on. -/
theorem step_of_row (hnext : s.sequencerNext) (hat : s.core.at ph n) (hwf : i.wellFormed = true)
    (henc : encode i = .seq (packSeq ph.code (BitVec.ofNat 7 n))) (hlead : s.core.sequenced.at ph' n') :
    ∃ t, step s = exec i s.takeTurn ∧ step s = .next t ∧ t.core.at ph' n' := by
  have hpair := CoreState.pairLegal_of_decodeSeq (CoreState.decodeSeq_of_encode hat hwf henc)
  exact ⟨_, step_of_encode hnext hat hwf henc, step_sequenced hnext.nextTurn hpair, hlead⟩

/-- In `IDLE`, `DONE` and `ERROR` the sequencer has no step (R144). -/
theorem step_of_rest (hnext : s.sequencerNext)
    (hat : s.core.at .idle 0 ∨ s.core.at .done 0 ∨ s.core.at .error 0) : step s = .next s.takeTurn := by
  have hph : s.core.ph = .idle ∨ s.core.ph = .done ∨ s.core.ph = .error := hat.imp And.left (Or.imp And.left And.left)
  have hpair : s.core.pairLegal = true := by
    rcases hat with ⟨hph, hcnt⟩ | ⟨hph, hcnt⟩ | ⟨hph, hcnt⟩ <;> exact CoreState.pairLegal_of_zero (by simp [hph]) hcnt
  rw [step_sequenced hnext.nextTurn hpair, CoreState.sequenced_rest hph]
  rfl

/-- Settles O9: each row by its micro-operation, whose word is the pair, and by where the pair moves on to. -/
theorem sequencerStepFollowsItsTable : Obligations.SequencerStepFollowsItsTable := by
  intro s hnext
  refine ⟨fun n hn hat => ?_, fun hat => ?_, fun hat => ?_, fun n hn hat => ?_, fun hat => ?_, fun hat => ?_,
    step_of_rest hnext⟩
  · exact step_of_row hnext hat (decide_eq_true (show n < 64 by omega)) rfl (CoreState.sequenced_at_expand hat hn)
  · exact step_of_row hnext hat rfl rfl (CoreState.sequenced_at_expand_last hat)
  · exact step_of_row hnext hat rfl rfl (CoreState.sequenced_at_init hat.1)
  · have hpair : s.core.pairLegal = true := s.core.pairLegal_iff.2 (.inr (.inl ⟨hat.1, by omega⟩))
    exact ⟨_, step_sequenced hnext.nextTurn hpair, CoreState.sequenced_at_round hat hn,
      fun h => step_of_encode (i := .rstep1 n) hnext hat (decide_eq_true (by omega)) rfl,
      fun h => step_of_encode (i := .rstep2 n) hnext hat (decide_eq_true (by omega)) rfl,
      fun h => step_of_encode (i := .rstep3 n) hnext hat (decide_eq_true (by omega)) rfl,
      fun h => step_of_encode (i := .rstep4 n) hnext hat (decide_eq_true (by omega)) rfl⟩
  · exact step_of_row hnext hat rfl rfl (CoreState.sequenced_at_round_last hat)
  · exact step_of_row hnext hat rfl rfl (CoreState.sequenced_at_final hat)

/-! ## The commands of sequencer control -/

/-- Settles O12: the response is all that `NOP` adds. -/
theorem nopAnswersOkAndChangesNothing : Obligations.NopAnswersOkAndChangesNothing := by
  obtain ⟨hframe, -⟩ := framePatternsOfTheCommands
  exact ⟨hframe, exec_nop⟩

/-- Settles O17: in `(IDLE, 0)` the gate is open, and `LEN` decides between the two ends. -/
theorem startBeginsTheRunOrRaisesEmpty : Obligations.StartBeginsTheRunOrRaisesEmpty := by
  obtain ⟨-, -, -, -, hframe, -⟩ := framePatternsOfTheCommands
  refine ⟨hframe, gated_start.gatedBy, fun s hidle => ?_⟩
  rw [exec_start, Driver.whenPhase_of_idle hidle]
  exact ⟨fun hlen => congrArg _ (if_neg hlen), fun hlen => congrArg _ (if_pos hlen)⟩

/-- Joined bit vectors as a number. -/
theorem toNat_append_eq_add {v w : Nat} (x : BitVec v) (y : BitVec w) : (x ++ y).toNat = x.toNat * 2 ^ w + y.toNat := by
  rw [BitVec.toNat_append, ← Nat.shiftLeft_add_eq_or_of_lt y.isLt, Nat.shiftLeft_eq]

/-- The fields of the status word at their places (R30). -/
theorem CoreState.toNat_statusWord (c : CoreState) : c.statusWord.toNat =
    c.busy.toNat + 2 * c.done.toNat + 4 * c.err.toNat + 16 * c.ecause.code.toNat + 256 * c.len.toNat := by
  have hlen := c.len.isLt
  have hcause := c.ecause.code.isLt
  have hbusy := c.busy.toNat_le
  have hdone := c.done.toNat_le
  have herr := c.err.toNat_le
  simp only [statusWord, BitVec.toNat_setWidth, toNat_append_eq_add, BitVec.toNat_ofBool, BitVec.toNat_ofNat]
  omega

theorem toNat_eq_ite {b : Bool} {p : Prop} [Decidable p] (h : b = true ↔ p) : b.toNat = if p then 1 else 0 := by
  split
  case isTrue hp => rw [h.2 hp]; rfl
  case isFalse hp => rw [Bool.eq_false_iff.2 (mt h.1 hp)]; rfl

theorem CoreState.err_iff : c.err = true ↔ c.ph = .error := decide_eq_true_iff

/-- The cause by its number (R28). -/
theorem ECause.toNat_code (e : ECause) :
    e.code.toNat = if e = .empty then 1 else if e = .overflow then 2 else if e = .internal then 3 else 0 := by
  cases e <;> rfl

/-- Settles O18: the status word is the sum of its fields, and an `OK` response adds nothing to it. -/
theorem statReturnsTheStatusWord : Obligations.StatReturnsTheStatusWord := by
  obtain ⟨-, -, -, -, -, hframe, -⟩ := framePatternsOfTheCommands
  refine ⟨hframe, fun s => ⟨reply .ok s.core.statusWord, exec_stat s, ?_⟩⟩
  have hok : (reply .ok s.core.statusWord).toNat = s.core.statusWord.toNat := by
    rw [reply_toNat]
    exact Nat.zero_add _
  rw [hok, CoreState.toNat_statusWord, toNat_eq_ite CoreState.busy_iff, toNat_eq_ite CoreState.done_iff,
    toNat_eq_ite CoreState.err_iff, ECause.toNat_code]

end Sys2Proof.Machine
end

section
/-! The micro-operation of the message_schedule_expander (spec/43_message_schedule_expander.md R161). -/

namespace Sys2Proof.Machine

variable {m : Memory} {i : Nat} {v : Word}

theorem toNat_packSeq_ofNat (ph : BitVec 3) {n : Nat} (hn : n < 128) :
    (packSeq ph (BitVec.ofNat 7 n)).toNat = ph.toNat * 2 ^ 7 + n := by
  rw [packSeq_toNat, BitVec.toNat_ofNat, Nat.mod_eq_of_lt hn]

/-- The mask `0x1F` of the shift amount is a remainder by 32 (R161). -/
theorem expandShift_eq_mod (w0 w2 w8 w13 : Word) : expandShift w0 w2 w8 w13 = (w0 ^^^ w2 ^^^ w8 ^^^ w13).toNat % 32 := by
  rw [expandShift, BitVec.toNat_and]
  exact Nat.and_two_pow_sub_one_eq_mod _ 5

/-- The expansion of step `i` by its source words. -/
theorem Memory.expansion_eq_rol32 (m : Memory) (i : Nat) : m.expansion i =
    rol32 1 ((m.word i ^^^ m.word (i + 2) ^^^ m.word (i + 8) ^^^ m.word (i + 13)).toNat % 32) := by
  rw [Memory.expansion, expandWord, expandShift_eq_mod]

theorem Memory.byte_writeWord_of_outside (hwf : m.wf = true) (hi : i < 256) {x : Nat} (hx : x < 4 * i ∨ 4 * i + 4 ≤ x) :
    (m.writeWord i v).byte x = m.byte x := by
  rw [byte_writeWord hwf hi, if_neg (by omega)]

/-- `XSTEP` changes the buffer and the pair only. -/
theorem CoreState.xstep_frame (i : Nat) (c : CoreState) :
    c.xstep i = { c with buf := (c.xstep i).buf, ph := (c.xstep i).ph, cnt := (c.xstep i).cnt } := by
  unfold CoreState.xstep
  split <;> rfl

/-- Settles O24: the word is written by `Memory.writeWord`, its value is a rotated 1, and the rest is the frame of `XSTEP`. -/
theorem xstepWritesTheExpandedWord : Obligations.XstepWritesTheExpandedWord := by
  refine fun i hi => ⟨⟨_, rfl, toNat_packSeq_ofNat 1 (by omega)⟩, fun s hwf => ⟨_, exec_xstep hi s, ?_⟩⟩
  have htop : i + 16 < 256 := by omega
  have hword : (s.core.xstep i).buf.word (i + 16) = s.core.buf.expansion i := by
    rw [CoreState.xstep_buf, Memory.word_writeWord_self hwf htop]
  rw [Memory.expansion_eq_rol32] at hword
  refine ⟨hword, (congrArg BitVec.toNat hword).trans (toNat_rol32_one (Nat.mod_lt _ (by omega))), fun y hy => ?_,
    fun hlast => ?_, fun hnot => ?_, congrArg s.withCore (s.core.xstep_frame i)⟩
  · rw [State.withCore_core, CoreState.xstep_buf, Memory.byte_writeWord_of_outside hwf htop (by omega)]
  · rcases s.core.xstep_pair hi with ⟨-, hpair⟩ | ⟨hlt, -⟩
    · exact hpair
    · omega
  · rcases s.core.xstep_pair hi with ⟨hlast, -⟩ | ⟨-, hpair⟩
    · exact absurd hlast hnot
    · exact hpair

end Sys2Proof.Machine
end

section
/-! The compression_round_pipeline (spec/44_compression_rounds.md): the mixing functions of R181, `HINIT` of R180 and the
rounds of R183 to R187. -/

namespace Sys2Proof.Machine

variable {f : Word → Word → Word → Word} {k k' : Word} {t : Nat} {i : Instr}

/-! ## The mixing functions, bit by bit -/

/-- Choose: the bit of `B` selects between the bits of `C` and `D`. -/
theorem getLsbD_mixChoose (b c d : Word) {n : Nat} (hn : n < 32) :
    (mixChoose b c d).getLsbD n = if b.getLsbD n then c.getLsbD n else d.getLsbD n := by
  simp only [mixChoose, BitVec.getLsbD_or, BitVec.getLsbD_and, BitVec.getLsbD_not, hn, decide_true, Bool.true_and]
  cases b.getLsbD n with
  | true => simp
  | false => simp

theorem getLsbD_mixParity (b c d : Word) (n : Nat) :
    (mixParity b c d).getLsbD n = (b.getLsbD n != (c.getLsbD n != d.getLsbD n)) := by
  rw [mixParity, BitVec.getLsbD_xor, BitVec.getLsbD_xor]
  exact Bool.xor_assoc _ _ _

/-- The majority of three bits as their count. -/
theorem majority_eq_decide : ∀ x y z : Bool, (x && y || x && z || y && z) = decide (2 ≤ x.toNat + y.toNat + z.toNat) := by
  decide

theorem getLsbD_mixMajority (b c d : Word) (n : Nat) : (mixMajority b c d).getLsbD n =
    decide (2 ≤ (b.getLsbD n).toNat + (c.getLsbD n).toNat + (d.getLsbD n).toNat) := by
  simp only [mixMajority, BitVec.getLsbD_or, BitVec.getLsbD_and]
  exact majority_eq_decide _ _ _

/-- Settles O37: each function has its truth table at every bit. -/
theorem mixingFunctionsBitByBit : Obligations.MixingFunctionsBitByBit :=
  fun b c d n hn => ⟨getLsbD_mixChoose b c d hn, getLsbD_mixParity b c d n, getLsbD_mixMajority b c d n⟩

/-! ## HINIT -/

/-- The registers after `HINIT`, with the constants as numbers (R180). -/
theorem CoreState.hinit_eq (c : CoreState) : c.hinit = { c with
    a := 0x67452301, b := 0xEFCDAB89, c := 0x98BADCFE, d := 0x10325476, e := 0xC3D2E1F0, ph := .round, cnt := 0 } := by
  simp only [CoreState.hinit, iv0_eq, iv1_eq, iv2_eq, iv3_eq, iv4_eq, BitVec.ofNat_eq_ofNat]

/-- Settles O25: `HINIT` answers with the registers of `CoreState.hinit`. -/
theorem hinitLoadsTheInitialConstants : Obligations.HinitLoadsTheInitialConstants := by
  refine ⟨rfl, fun s => ?_⟩
  rw [exec_hinit, CoreState.hinit_eq]
  rfl

/-! ## The rounds -/

/-- A round changes the accumulators and the pair only; the buffer is not written. -/
theorem CoreState.roundStep_frame (f : Word → Word → Word → Word) (k : Word) (t : Nat) (c : CoreState) :
    c.roundStep f k t = { c with
      a := (c.roundStep f k t).a, b := (c.roundStep f k t).b, c := (c.roundStep f k t).c, d := (c.roundStep f k t).d,
      e := (c.roundStep f k t).e, ph := (c.roundStep f k t).ph, cnt := (c.roundStep f k t).cnt } := by
  unfold CoreState.roundStep
  split <;> rfl

/-- The round of R183, whatever its mixing function and its constant are. -/
theorem roundResult_roundStep (f : Word → Word → Word → Word) (k : Word) (ht : t < 80) (s : State) :
    RoundResult f k t s (s.withCore (s.core.roundStep f k t)) := by
  have hpair := s.core.roundStep_pair f k ht
  refine ⟨s.core.roundStep_a f k t, s.core.roundStep_b f k t, s.core.roundStep_c f k t, s.core.roundStep_d f k t,
    s.core.roundStep_e f k t, fun hlast => ?_, fun hnot => ?_, congrArg s.withCore (s.core.roundStep_frame f k t)⟩
  · rcases hpair with ⟨-, hfinal⟩ | ⟨hlt, -⟩
    · exact hfinal
    · omega
  · rcases hpair with ⟨hlast, -⟩ | ⟨-, hnext⟩
    · exact absurd hlast hnot
    · exact hnext

/-- What makes the micro-operation `i` the round `t` with `f` and `k`: its sequencer word, and that `exec` does the round.
The constant `k` has a name in the model and the value `k'` in the statements. -/
theorem isRound_of_exec (ht : t < 80) (hk : k = k') (henc : encode i = .seq (packSeq 3 (BitVec.ofNat 7 t)))
    (hexec : ∀ s, exec i s = .next (s.withCore (s.core.roundStep f k t))) :
    (∃ q, encode i = .seq q ∧ q.toNat = 0x180 + t) ∧ ∀ s : State, ∃ u, exec i s = .next u ∧ RoundResult f k' t s u :=
  ⟨⟨_, henc, toNat_packSeq_ofNat 3 (by omega)⟩, fun s => ⟨_, hexec s, hk ▸ roundResult_roundStep f k ht s⟩⟩

/-- Settles O26: `RSTEP1` is the round with choose and `K1`. -/
theorem rstep1IsTheRoundWithChoose : Obligations.Rstep1IsTheRoundWithChoose :=
  fun _ ht => isRound_of_exec (by omega) k1_eq rfl (exec_rstep1 ht)

/-- Settles O27: `RSTEP2` is the round with parity and `K2`. -/
theorem rstep2IsTheRoundWithParity : Obligations.Rstep2IsTheRoundWithParity :=
  fun _ hlo hhi => isRound_of_exec (by omega) k2_eq rfl (exec_rstep2 ⟨hlo, hhi⟩)

/-- Settles O28: `RSTEP3` is the round with majority and `K3`. -/
theorem rstep3IsTheRoundWithMajority : Obligations.Rstep3IsTheRoundWithMajority :=
  fun _ hlo hhi => isRound_of_exec (by omega) k3_eq rfl (exec_rstep3 ⟨hlo, hhi⟩)

/-- Settles O29: `RSTEP4` is the round with parity and `K4`. -/
theorem rstep4IsTheRoundWithParity : Obligations.Rstep4IsTheRoundWithParity :=
  fun _ hlo hhi => isRound_of_exec (by omega) k4_eq rfl (exec_rstep4 ⟨hlo, hhi⟩)

end Sys2Proof.Machine
end

section
/-! The output_serializer (spec/45_output_serializer.md): the final addition of R200, and what `RDB` and `RDW` answer in
`DONE` (R202, R204, R205). -/

namespace Sys2Proof.Machine

variable {s : State} {i : Instr} {data : Word} {k : Nat}

/-! ## The final addition -/

/-- The registers after `FIN`, with the constants as numbers (R200). -/
theorem CoreState.fin_eq (c : CoreState) : c.fin = { c with
    a := c.a + 0x67452301, b := c.b + 0xEFCDAB89, c := c.c + 0x98BADCFE, d := c.d + 0x10325476, e := c.e + 0xC3D2E1F0,
    ph := .done } := by
  simp only [CoreState.fin, iv0_eq, iv1_eq, iv2_eq, iv3_eq, iv4_eq, BitVec.ofNat_eq_ofNat]

/-- Settles O30: each sum is one of 32-bit words, and the flags are those of the phase `DONE`. -/
theorem finAddsTheInitialConstants : Obligations.FinAddsTheInitialConstants := by
  refine ⟨rfl, fun s => ⟨s.withCore s.core.fin, exec_fin s, ?_⟩⟩
  rw [CoreState.fin_eq]
  exact ⟨BitVec.toNat_add _ _, BitVec.toNat_add _ _, BitVec.toNat_add _ _, BitVec.toNat_add _ _, BitVec.toNat_add _ _,
    rfl, rfl, rfl⟩

/-! ## The output reads in `DONE` -/

/-- The status `OK` has the code 0, so the response is its data as a number (R72). -/
theorem toNat_reply_ok (data : Word) : (reply .ok data).toNat = data.toNat :=
  (reply_toNat .ok data).trans (Nat.zero_add _)

/-- In `DONE` the gate of an output read is open: its data is all that the read adds to the state. -/
theorem exists_reply_of_done (hdone : s.core.at .done 0)
    (hexec : exec i s = .next (s.whenPhase .done (s.respond .ok data))) :
    ∃ r : Reply, exec i s = .next { s with responses := r :: s.responses } ∧ r.toNat = data.toNat := by
  obtain ⟨hph, hcnt⟩ := hdone
  have hpair : s.core.pairLegal = true := CoreState.pairLegal_of_zero (by simp [hph]) hcnt
  rw [State.whenPhase_of_phase (need := .done) hpair nofun hph] at hexec
  exact ⟨reply .ok data, hexec, toNat_reply_ok data⟩

/-- A list joined from pieces of `n` entries: entry `k` is the entry `k % n` of piece `k / n`. -/
theorem getD_flatMap_of_length {α β : Type} {f : α → List β} {n : Nat} (hf : ∀ x, (f x).length = n) (x₀ : α) (y₀ : β)
    {l : List α} (hk : k < n * l.length) : (l.flatMap f).getD k y₀ = (f (l.getD (k / n) x₀)).getD (k % n) y₀ := by
  induction l generalizing k with
  | nil => exact absurd hk (Nat.not_lt_zero k)
  | cons x xs ih =>
    have hx := hf x
    rw [List.flatMap_cons]
    rcases Nat.lt_or_ge k n with hlt | hge
    · rw [List.getD_append _ _ _ _ (by omega), Nat.div_eq_of_lt hlt, Nat.mod_eq_of_lt hlt, List.getD_cons_zero]
    · obtain ⟨m, rfl⟩ := Nat.exists_eq_add_of_le hge
      rw [List.length_cons, Nat.mul_succ] at hk
      have hm : m < n * xs.length := by omega
      rw [List.getD_append_right _ _ _ _ (by omega), hx, Nat.add_sub_cancel_left, ih hm,
        Nat.add_div_left m (Nat.pos_of_lt_mul_right hm), Nat.add_mod_left, List.getD_cons_succ]

/-- Byte `j` of a word, most significant first, as a number (R202). -/
theorem toNat_getD_be32 (v : Word) {j : Nat} (hj : j < 4) :
    ((be32 v).getD j 0).toNat = v.toNat / 2 ^ (24 - 8 * j) % 256 := by
  have hbyte (o : Nat) : (v.extractLsb' o 8).toNat = v.toNat / 2 ^ o % 256 := by
    rw [BitVec.extractLsb'_toNat, Nat.shiftRight_eq_div_pow]
  match j, hj with
  | 0, _ => exact hbyte 24
  | 1, _ => exact hbyte 16
  | 2, _ => exact hbyte 8
  | 3, _ => exact hbyte 0

/-- The digest byte `DG[k]` as a number (R202). -/
theorem CoreState.toNat_getD_digestBytes (c : CoreState) (hk : k < 20) :
    (c.digestBytes.getD k 0).toNat = (c.digestWords.getD (k / 4) 0).toNat / 2 ^ (24 - 8 * (k % 4)) % 256 := by
  rw [digestBytes, getD_flatMap_of_length (n := 4) (fun _ => rfl) 0 0 (by rwa [length_digestWords]),
    toNat_getD_be32 _ (Nat.mod_lt k (by omega))]

/-- Settles O19: the gate is open in `DONE` only, and the byte is a piece of its word. -/
theorem rdbReadsTheDigestByte : Obligations.RdbReadsTheDigestByte := by
  obtain ⟨-, -, -, -, -, -, hframe, -⟩ := framePatternsOfTheCommands
  refine fun k hk => ⟨hframe k hk, (gated_rdb hk).gatedBy, fun s hdone => ?_⟩
  obtain ⟨r, hexec, hr⟩ := exists_reply_of_done hdone (exec_rdb_of_lt hk s)
  refine ⟨r, hexec, ?_⟩
  rw [hr, BitVec.toNat_setWidth_of_le (by omega), CoreState.toNat_getD_digestBytes _ hk]
  rfl

/-- Settles O20: the gate is open in `DONE` only, and the data is the word itself. -/
theorem rdwReadsTheDigestWord : Obligations.RdwReadsTheDigestWord := by
  obtain ⟨-, -, -, -, -, -, -, hframe, -⟩ := framePatternsOfTheCommands
  exact fun k hk => ⟨hframe k hk, (gated_rdw hk).gatedBy, fun s hdone =>
    exists_reply_of_done hdone (exec_rdw_of_lt hk s)⟩

end Sys2Proof.Machine
end

section
/-! The way out of `ERROR` (spec/60_exceptions.md R225, R226): a turn that clears leaves the reset core, any other turn leaves
the core as it is. -/

namespace Sys2Proof.Machine

variable {s : State} {c : Frame}

theorem Turn.clears_command : (Turn.command c).clears = true ↔ decodeFrame c = .instr .clr := decide_eq_true_iff

/-- Only a sequencer turn comes next without standing in the list (R146). -/
theorem State.turns_of_nextTurn (h : s.nextTurn = .command c) : ∃ rest, s.turns = .command c :: rest := by
  cases hturns : s.turns with
  | nil => simp only [nextTurn, hturns, reduceCtorEq] at h
  | cons x rest => exact ⟨rest, by rw [← h, nextTurn_of_turns hturns]⟩

/-- `CLR` and reset leave the reset core, whatever the state (R121, R250). -/
theorem step_of_clears (h : s.nextTurn.clears = true) : ∃ t, step s = .next t ∧ t.core = CoreState.reset := by
  cases hturn : s.nextTurn with
  | command c =>
    have hclr : decodeFrame c = .instr .clr := Turn.clears_command.1 (hturn ▸ h)
    obtain ⟨rest, hturns⟩ := State.turns_of_nextTurn hturn
    exact ⟨_, (stepRunsTheDecodedCommand s c rest .clr hturns hclr).trans (exec_clr _), rfl⟩
  | sequencer => rw [hturn] at h; cases h
  | reset => exact ⟨_, step_reset hturn, rfl⟩

/-- In `ERROR` the sequencer has no step and a frame that is no `CLR` is only answered (R225). -/
theorem step_of_not_clears_of_error (herr : s.core.at .error 0) (h : s.nextTurn.clears = false) :
    ∃ t, step s = .next t ∧ t.core = s.core := by
  obtain ⟨hph, hcnt⟩ := herr
  cases hturn : s.nextTurn with
  | command c =>
    have hclr : decodeFrame c ≠ .instr .clr := fun hd => by
      rw [hturn, Turn.clears_command.2 hd] at h
      cases h
    obtain ⟨rest, hturns⟩ := State.turns_of_nextTurn hturn
    obtain ⟨t, ht, hcore, -⟩ := commandsOutsideIdleChangeNothing s c rest hturns (by simp [hph]) hclr
    exact ⟨t, ht, hcore⟩
  | sequencer =>
    have hpair : s.core.pairLegal = true := CoreState.pairLegal_of_zero (by simp [hph]) hcnt
    exact ⟨_, step_sequenced hturn hpair, CoreState.sequenced_rest (.inr (.inr hph))⟩
  | reset => rw [hturn] at h; cases h

/-- Settles O42: the next turn clears or it does not, and each has its own end. -/
theorem errorIsLeftOnlyByClrOrReset : Obligations.ErrorIsLeftOnlyByClrOrReset := by
  intro s herr
  cases hclears : s.nextTurn.clears with
  | true =>
    obtain ⟨t, ht, hcore⟩ := step_of_clears hclears
    exact ⟨t, ht, fun _ => hcore, nofun⟩
  | false =>
    obtain ⟨t, ht, hcore⟩ := step_of_not_clears_of_error herr hclears
    exact ⟨t, ht, nofun, fun _ => hcore⟩

end Sys2Proof.Machine
end

section
/-! Interleaving (spec/70_reset_and_hazards.md R258, R259): outside `IDLE` the turns of a list that clear nothing do to the
core what its sequencer turns alone do, and so a whole run ends with `DIGEST`. -/

namespace Sys2Proof.Machine

variable {c d : CoreState} {s : State} {ts rest : List Turn} {x : Turn}

/-! ## Any interleaving is the sequencer's turns alone -/

theorem CoreState.SequencerMove.ph_ne_idle (hmove : c.SequencerMove d) (h : c.ph ≠ .idle) : d.ph ≠ .idle := by
  cases hmove with
  | xstep hph hcnt =>
    rcases c.xstep_pair hcnt with ⟨-, hph', -⟩ | ⟨-, hph', -⟩
    · exact ne_of_eq_of_ne hph' nofun
    · exact ne_of_eq_of_ne hph' h
  | round f k hph hcnt =>
    rcases c.roundStep_pair f k hcnt with ⟨-, hph', -⟩ | ⟨-, hph', -⟩
    · exact ne_of_eq_of_ne hph' nofun
    · exact ne_of_eq_of_ne hph' h
  | hinit | fin => exact nofun
  | rest => exact h

/-- Outside `IDLE` a turn that does not clear the core leaves it, or is the sequencer's (R61, R144). -/
theorem step_of_not_clears (hpair : s.core.pairLegal = true) (hph : s.core.ph ≠ .idle) (hturns : s.turns = x :: rest)
    (hx : x.clears = false) :
    ∃ t, step s = .next t ∧ t.turns = rest ∧ t.core = CoreState.sequenced^[[x].count .sequencer] s.core := by
  have hnext := State.nextTurn_of_turns hturns
  cases x with
  | command c =>
    have hclr : decodeFrame c ≠ .instr .clr := fun hd => by
      rw [Turn.clears_command.2 hd] at hx
      cases hx
    obtain ⟨t, ht, hcore, htail⟩ := commandsOutsideIdleChangeNothing s c rest hturns hph hclr
    exact ⟨t, ht, htail, hcore⟩
  | sequencer => exact ⟨_, step_sequenced hnext hpair, congrArg List.tail hturns, rfl⟩
  | reset => cases hx

/-- By induction on the list: only its sequencer turns reach the core, each with the move it would make alone. -/
theorem run_of_not_clears (hpair : s.core.pairLegal = true) (hph : s.core.ph ≠ .idle) (hturns : s.turns = ts)
    (hts : ∀ x ∈ ts, x.clears = false) :
    ∃ t, Host.Core.run core ts.length s = .next t ∧ t.turns = [] ∧
      t.core = CoreState.sequenced^[ts.count .sequencer] s.core := by
  induction ts generalizing s with
  | nil => exact ⟨s, rfl, hturns, rfl⟩
  | cons x ts ih =>
    obtain ⟨hx, hts⟩ := List.forall_mem_cons.1 hts
    obtain ⟨u, hu, huturns, hucore⟩ := step_of_not_clears hpair hph hturns hx
    have hupair : u.core.pairLegal = true := hucore ▸ CoreState.pairLegal_iterate hpair _
    have huph : u.core.ph ≠ .idle := by
      rw [hucore, List.count_singleton]
      split
      · exact (CoreState.sequencerMove_sequenced hpair).ph_ne_idle hph
      · exact hph
    obtain ⟨t, ht, htturns, htcore⟩ := ih hupair huph huturns hts
    refine ⟨t, (run_succ_of_step hu _).trans ht, htturns, ?_⟩
    rw [htcore, hucore, ← Function.iterate_add_apply, ← List.count_append, (List.perm_append_singleton x ts).count_eq]

/-- Settles O47: both runs make the moves of the sequencer turns in the list. -/
theorem interleavingDoesNotMatter : Obligations.InterleavingDoesNotMatter := by
  intro s ts hpair hph hts
  obtain ⟨t, ht, hturns, hcore⟩ := run_of_not_clears (s := { s with turns := ts }) hpair hph rfl hts
  exact ⟨t, _, ht, run_sequenced (s := { s with turns := [] }) hpair rfl _, hcore, hturns⟩

/-! ## What a run leaves unchanged -/

/-- A move of the sequencer writes no byte of `W[0]` to `W[15]` and none behind `W[79]` (R161). -/
theorem CoreState.SequencerMove.byte_eq (hmove : c.SequencerMove d) (hwf : c.buf.wf = true) {x : Nat}
    (hx : x < 64 ∨ 320 ≤ x) : d.buf.byte x = c.buf.byte x := by
  cases hmove with
  | xstep hph hcnt =>
    rw [xstep_buf]
    exact Memory.byte_writeWord_of_outside hwf (by omega) (by omega)
  | round f k => rw [roundStep_buf]
  | hinit | fin | rest => rfl

/-- The core `d` meets the invariant and has the `LEN`, `BUF[0..63]` and `BUF[320..1023]` of `c`: what the moves of the
sequencer keep (R35, R259). -/
structure CoreState.KeepsMessage (c d : CoreState) : Prop where
  inv : d.Inv
  len : d.len = c.len
  byte : ∀ x, x < 64 ∨ 320 ≤ x → d.buf.byte x = c.buf.byte x

theorem CoreState.KeepsMessage.sequenced (h : c.KeepsMessage d) : c.KeepsMessage d.sequenced := by
  have hmove := sequencerMove_sequenced h.inv.pair
  exact ⟨hmove.inv h.inv, hmove.len_eq.trans h.len, fun x hx => (hmove.byte_eq h.inv.bufWf hx).trans (h.byte x hx)⟩

theorem CoreState.KeepsMessage.iterate (h : c.KeepsMessage d) (n : Nat) :
    c.KeepsMessage (CoreState.sequenced^[n] d) := by
  induction n with
  | zero => exact h
  | succ n ih =>
    rw [Function.iterate_succ_apply']
    exact ih.sequenced

/-! ## A whole run -/

theorem CoreState.at_idle (hpair : c.pairLegal = true) (hph : c.ph = .idle) : c.at .idle 0 :=
  ⟨hph, by simpa [pairLegal_iff, hph] using hpair⟩

/-- The buffer's own 1024 bytes as a byte string. -/
theorem Memory.byte_eq_getD (m : Memory) (x : Nat) (hx : x < 1024) :
    m.byte x = ((List.range 1024).map m.byte).getD x 0 := by
  rw [List.getD_eq_getElem _ _ (by simpa using hx), List.getElem_map, List.getElem_range]

/-- Settles O48: `START` begins the run, its interleaved turns are those of the sequencer alone, and 146 of them end it. -/
theorem runComputesTheDigest : Obligations.RunComputesTheDigest := by
  intro s ts hinv hph hlen hts hcount
  have hidle : s.core.at .idle 0 := CoreState.at_idle hinv.pair hph
  have hne : s.core.len ≠ 0 := fun h0 => by simp [h0] at hlen
  have hstart := (Driver.performs_start hidle hne).sends { s with turns := ts } rfl
  have hrun := CoreState.inRun_startRun s.core
  have hkeep : s.core.KeepsMessage s.core.startRun :=
    ⟨(CoreState.CommandMove.start hph hne).inv hinv, rfl, fun _ _ => rfl⟩
  obtain ⟨t, ht, -, hcore⟩ := run_of_not_clears (ts := ts)
    (s := State.after { s with turns := ts } s.core.startRun [reply .ok 0]) hrun.legal nofun rfl hts
  have hdone : t.core.at .done 0 := hcore ▸ (hrun.iterate _).at_done (by omega)
  have hphdone : t.core.ph = .done := hdone.1
  have hcomputes := hcore ▸ (CoreState.computes_startRun hinv.bufWf s.core.buf.byte_eq_getD).iterate _
  obtain ⟨htinv, htlen, htbyte⟩ : s.core.KeepsMessage t.core := hcore ▸ hkeep.iterate _
  refine ⟨t, ?_, hdone, htlen, htinv.ecause_none (by simp [hphdone]), htbyte,
    htinv.expanded (.inr (.inr (.inr hphdone))), hcomputes.digestBytes hphdone⟩
  rw [Nat.add_comm]
  exact (run_add hstart _).trans ht

end Sys2Proof.Machine
end

section
/-! Reset (spec/70_reset_and_hazards.md R250): the reset core, ready for a load. -/

namespace Sys2Proof.Machine

/-- In the reset core a push of at most 1024 bytes loads them (R122, R123). -/
theorem appendBytes_of_reset {s : State} {bs : List Byte} (hs : s.core = CoreState.reset) (hbs : bs.length ≤ 1024) :
    s.whenPhase .idle (s.appendBytes bs) = (s.withCore (CoreState.reset.load bs)).respond .ok 0 := by
  rw [← hs]
  exact State.whenPhase_appendBytes (hs ▸ ⟨rfl, rfl⟩) (by simpa [hs] using hbs)

theorem CoreState.statusWord_reset : CoreState.reset.statusWord = 0 := by decide

/-- Settles O11: the step leaves the reset core, whose fields are read off, and a load of it fits. -/
theorem resetGivesTheResetValues : Obligations.ResetGivesTheResetValues := by
  intro s rest hturns
  have hstep := step_reset (State.nextTurn_of_turns hturns)
  rw [State.takeTurn_of_turns hturns] at hstep
  refine ⟨_, hstep, Memory.byte_nil, rfl, rfl, rfl, rfl, rfl, rfl, rfl, rfl, rfl, rfl,
    CoreState.statusWord_reset, rfl, rfl, fun b => ?_, fun w => ?_, ⟨_, exec_clr _, rfl⟩⟩
  · exact ⟨_, (exec_pushb b _).trans (congrArg _ (appendBytes_of_reset rfl (by simp))), ⟨rfl, rfl⟩, rfl, rfl⟩
  · exact ⟨_, (exec_pushw w _).trans (congrArg _ (appendBytes_of_reset rfl (by simp))), ⟨rfl, rfl⟩, rfl, rfl⟩

end Sys2Proof.Machine
end

section
/-! The hexadecimal form of the digest (spec/45_output_serializer.md R203, R206, R207): its characters are the nibbles of the
output words, and no output read has data outside `DONE`. -/

namespace Sys2Proof.Machine

/-! ## The characters -/

/-- `hexchar` as a number (R203). -/
theorem toNat_hexChar (n : BitVec 4) :
    (hexChar n).toNat = if n.toNat ≤ 9 then 0x30 + n.toNat else 0x57 + n.toNat := by
  have := n.isLt
  unfold hexChar
  split <;> rw [BitVec.toNat_add, BitVec.toNat_setWidth_of_le (by omega)] <;> exact Nat.mod_eq_of_lt (by simp; omega)

/-- The codes of the digits and of the letters `a` to `f`. -/
theorem toNat_hexChar_bounds (n : BitVec 4) :
    (0x30 ≤ (hexChar n).toNat ∧ (hexChar n).toNat ≤ 0x39) ∨ (0x61 ≤ (hexChar n).toNat ∧ (hexChar n).toNat ≤ 0x66) := by
  have := n.isLt
  rw [toNat_hexChar]
  split <;> omega

/-- Character `j` of a byte is that of its nibble `j`, the most significant first (R203). -/
theorem toNat_getD_hexOfByte (b : Byte) {j : Nat} (hj : j < 2) :
    ((hexOfByte b).getD j 0).toNat =
      let n := b.toNat / 2 ^ (4 - 4 * j) % 16
      if n ≤ 9 then 0x30 + n else 0x57 + n := by
  have hnibble (o : Nat) : (b.extractLsb' o 4).toNat = b.toNat / 2 ^ o % 16 := by
    rw [BitVec.extractLsb'_toNat, Nat.shiftRight_eq_div_pow]
  match j, hj with
  | 0, _ => exact (toNat_hexChar _).trans (by rw [hnibble])
  | 1, _ => exact (toNat_hexChar _).trans (by rw [hnibble])

/-- The nibble `k % 2` of the byte `k / 2` of the digest is the nibble `k % 8` of its word `k / 8`. -/
theorem CoreState.nibble_digestBytes (c : CoreState) {k : Nat} (hk : k < 40) :
    (c.digestBytes.getD (k / 2) 0).toNat / 2 ^ (4 - 4 * (k % 2)) % 16 =
      (c.digestWords.getD (k / 8) 0).toNat / 2 ^ (28 - 4 * (k % 8)) % 16 := by
  have hword : k / 2 / 4 = k / 8 := Nat.div_div_eq_div_mul k 2 4
  have hshift : 28 - 4 * (k % 8) = 24 - 8 * (k / 2 % 4) + (4 - 4 * (k % 2)) := by omega
  rw [toNat_getD_digestBytes c (by omega), hword, hshift, pow_add, ← Nat.div_div_eq_div_mul]
  rcases Nat.mod_two_eq_zero_or_one k with hj | hj <;> rw [hj] <;> omega

/-- The character `HX[k]` (R203). -/
theorem CoreState.toNat_getD_hexDigest (c : CoreState) {k : Nat} (hk : k < 40) :
    (c.hexDigest.getD k 0).toNat =
      let n := (c.digestWords.getD (k / 8) 0).toNat / 2 ^ (28 - 4 * (k % 8)) % 16
      if n ≤ 9 then 0x30 + n else 0x57 + n := by
  rw [hexDigest, getD_flatMap_of_length (n := 2) (fun _ => rfl) 0 0 (by rw [length_digestBytes]; omega),
    toNat_getD_hexOfByte _ (Nat.mod_lt k (by omega)), nibble_digestBytes c hk]

/-- Settles O21: the gate is open in `DONE` only, and the data is the character `HX[k]`. -/
theorem rdhReadsTheHexCharacter : Obligations.RdhReadsTheHexCharacter := by
  obtain ⟨-, -, -, -, -, -, -, -, hframe⟩ := framePatternsOfTheCommands
  refine fun k hk => ⟨hframe k hk, (gated_rdh hk).gatedBy, fun s hdone => ?_⟩
  obtain ⟨r, hexec, hr⟩ := exists_reply_of_done hdone (exec_rdh_of_lt hk s)
  refine ⟨r, hexec, ?_⟩
  rw [hr, BitVec.toNat_setWidth_of_le (by omega), CoreState.toNat_getD_hexDigest _ hk]
  rfl

/-! ## Outside `DONE` -/

theorem Status.code_ne_zero {st : Status} (h : st ≠ .ok) : st.code ≠ 0x00 := by
  cases st with
  | ok => exact absurd rfl h
  | invalidData | refused | illegal => decide

/-- Outside `DONE` an output read, whatever it reads, answers with no data (R76 item 7, R77, R207). -/
theorem State.readOutput_of_not_done (view : Option Word) {s : State} (hph : s.core.ph ≠ .done) :
    ∃ st : Status, st ≠ .ok ∧ s.readOutput view = s.respond st 0 := by
  rcases s.readOutput_cases view with ⟨-, he⟩ | ⟨data, -, he⟩
  · exact ⟨.illegal, nofun, he⟩
  · rw [he]
    rcases s.whenPhase_cases .done (s.respond .ok data) with ⟨-, hw⟩ | ⟨-, -, hw⟩ | ⟨-, -, hdone, -⟩ | ⟨-, -, -, hw⟩
    · exact ⟨.refused, nofun, hw⟩
    · exact ⟨.invalidData, nofun, hw⟩
    · exact absurd hdone hph
    · exact ⟨.refused, nofun, hw⟩

/-- Settles O22: a character is that of some nibble, and each of the three commands is an output read. -/
theorem outputIsReadOnlyInDone : Obligations.OutputIsReadOnlyInDone := by
  refine ⟨fun c => ⟨c.length_digestBytes, c.length_hexDigest, fun x hx => ?_⟩, fun s k i hi hph => ?_⟩
  · obtain ⟨b, -, hb⟩ := List.mem_flatMap.1 hx
    rcases List.mem_pair.1 hb with rfl | rfl <;> exact toNat_hexChar_bounds _
  · have hread : ∃ view, exec i s = .next (s.readOutput view) := by
      rcases hi with rfl | rfl | rfl
      · exact ⟨_, exec_rdb k s⟩
      · exact ⟨_, exec_rdw k s⟩
      · exact ⟨_, exec_rdh k s⟩
    obtain ⟨view, hexec⟩ := hread
    obtain ⟨st, hst, hrefused⟩ := State.readOutput_of_not_done view hph
    refine ⟨reply st 0, hexec.trans (congrArg _ hrefused), ?_, replyData_reply st 0⟩
    rw [replyStatus_reply]
    exact Status.code_ne_zero hst

end Sys2Proof.Machine
end

section
/-! The canonical form of the buffer (spec/10_state.md R20): its bytes determine it. -/

namespace Sys2Proof.Machine.Memory

variable {m m' : Memory} {lo lo' k : Nat} {v : Byte}

/-- A buffer that reads at `k` as one that lists `k` first does not begin above `k`: the byte listed is not zero. -/
theorem not_wfFrom_succ_of_byte_eq (h : wfFrom lo ((k, v) :: m) = true) (hbyte : m'.byte k = byte ((k, v) :: m) k) :
    ¬ wfFrom (k + 1) m' = true := by
  obtain ⟨-, -, hv, -⟩ := wfFrom_cons.1 h
  intro h'
  rw [byte_of_lt h' (Nat.lt_succ_self k), byte, if_pos rfl] at hbyte
  exact hv hbyte.symm

/-- By induction on the entries: the first addresses are the same, and so are their bytes and what reads behind them. -/
theorem eq_of_byte_eq (h : wfFrom lo m = true) (h' : wfFrom lo' m' = true)
    (hbyte : ∀ x, x < 1024 → m.byte x = m'.byte x) : m = m' := by
  induction m generalizing m' lo lo' with
  | nil =>
    cases m' with
    | nil => rfl
    | cons p m' =>
      obtain ⟨-, hk, -⟩ := wfFrom_cons.1 h'
      exact absurd rfl (not_wfFrom_succ_of_byte_eq h' (hbyte p.1 hk))
  | cons p m ih =>
    obtain ⟨k, v⟩ := p
    obtain ⟨-, hk, hv, hm⟩ := wfFrom_cons.1 h
    cases m' with
    | nil => exact absurd rfl (not_wfFrom_succ_of_byte_eq h (hbyte k hk).symm)
    | cons p' m' =>
      obtain ⟨k', v'⟩ := p'
      obtain ⟨-, hk', hv', hm'⟩ := wfFrom_cons.1 h'
      obtain rfl : k = k' := by
        by_contra hne
        rcases Nat.lt_or_gt_of_ne hne with hlt | hlt
        · exact not_wfFrom_succ_of_byte_eq h (hbyte k hk).symm (wfFrom_cons.2 ⟨hlt, hk', hv', hm'⟩)
        · exact not_wfFrom_succ_of_byte_eq h' (hbyte k' hk') (wfFrom_cons.2 ⟨hlt, hk, hv, hm⟩)
      have hhead : v = v' := by simpa [byte] using hbyte k hk
      have htail : m = m' := ih hm hm' fun x hx => by
        by_cases hle : x ≤ k
        · rw [byte_of_lt hm (Nat.lt_succ_of_le hle), byte_of_lt hm' (Nat.lt_succ_of_le hle)]
        · have hkx : ¬ k = x := by omega
          simpa only [byte, if_neg hkx] using hbyte x hx
      rw [hhead, htail]

/-- Settles O35: the canonical form is `wfFrom 0`. -/
theorem buffersThatReadAlikeAreEqual : Obligations.BuffersThatReadAlikeAreEqual :=
  fun _ _ h h' hbyte => eq_of_byte_eq h h' hbyte

end Sys2Proof.Machine.Memory
end
